-- ==== Sys2Proof/Word.lean ====
section
/-! DEFINITION. The word types of HTCORE (spec 00_scope R9, R11: all unsigned, bit 0 least significant). -/

namespace Sys2Proof

/-- A key byte, an opcode, a register number, a fault code (8 bits). -/
abbrev Byte := BitVec 8

/-- The accumulator, a digest, a value, the `arg` and `data` fields (64 bits, R9). -/
abbrev Word := BitVec 64

/-- A command word `cmd` (72 bits, R9, R70). -/
abbrev CmdWord := BitVec 72

/-- A response word `rsp` (66 bits, R9, R74). -/
abbrev RspWord := BitVec 66

/-- A key: a byte sequence (R10). Equality of keys is equality of lists: same length, same byte at
every position. -/
abbrev Key := List Byte

end Sys2Proof
end

