-- ==== Sys2Proof/Config.lean ====
section
/-! DEFINITION. The parameters of the block (spec 00_scope R8) and its fixed values (R9). -/

namespace Sys2Proof

/-- `IDX_BITS`, the width the digest is narrowed to before the index remainder: 32 or 64 (R8). -/
inductive IdxBits where
  | bits32
  | bits64
deriving DecidableEq, Repr

/-- The number `IDX_BITS` stands for. -/
def IdxBits.num : IdxBits → Nat
  | .bits32 => 32
  | .bits64 => 64

/-- The parameters of R8. The types carry the upper bounds of `KEY_MAX` (65535) and of `CAP_MAX`
(2^32 − 1); the lower bounds are `Config.wf`. -/
structure Config where
  /-- `KEY_MAX`, the largest key length in bytes. -/
  keyMax : BitVec 16
  /-- `CAP_MAX`, the number of slots in each bank. -/
  capMax : BitVec 32
  /-- `IDX_BITS`. -/
  idxBits : IdxBits
  /-- `MUL_HH`: the `high*prime_high` product is in the shifted sum (true is 1). -/
  mulHH : Bool
  /-- `BASIS`, the offset basis. -/
  basis : Word
  /-- `PRIME`, the multiplier. -/
  prime : Word
deriving DecidableEq, Repr

/-- The defaults of R8 for a given `CAP_MAX`, which has no default. -/
def Config.withCapMax (capMax : BitVec 32) : Config where
  keyMax := 64#16
  capMax := capMax
  idxBits := .bits64
  mulHH := true
  basis := 0x00000000811C9DC5#64
  prime := 0x00000100000001B3#64

/-- The parameters of the machine that `State.reset` is: the defaults of R8. `CAP_MAX` is OPEN in the
spec (R8, D10): DESIGN CHOICE, the value 69785 of the reset vector of 95_test_vectors 5.2 (entry 2). -/
def Config.default : Config := Config.withCapMax 69785#32

/-- `CAP_INIT`, the capacity of a new table (R9). -/
def capInit : Nat := 127

/-- `LF_NUM` and `LF_DEN`: the load-factor threshold 3/4 (R9). -/
def lfNum : Nat := 3
def lfDen : Nat := 4

/-- The capacity from which a table grows by 8/5 and no longer by 2 (R9). -/
def growthSwitch : Nat := 1000

end Sys2Proof
end

