-- ==== Sys2Proof/Syntax.lean ====
section
/-! DEFINITION. The commands of HTCORE-1, one constructor per row of spec/opcode_table.json, and the names
the host reads and writes commands with. -/

namespace Sys2Proof

/-- The fourteen commands (spec 30_encoding R73) with the operand of their format (R71, R72). The key
operand of HKEY, INSERT, GET and REMOVE is not in the command word (R72), so it is no field here. -/
inductive Instr where
  | nop
  | construct
  | rdreg (regno : Byte)
  | hinit
  | habsorb (imm8 : Byte)
  | hkey
  | kclr
  | kpush (imm8 : Byte)
  | kread (idx : BitVec 16)
  | insert (val : Word)
  | get
  | remove
  | itstart
  | itnext
deriving DecidableEq, Repr

/-- The five formats (R71). -/
inductive Format where
  | Z
  | B
  | R
  | X
  | V
deriving DecidableEq, Repr

/-- Why a command word spells no command (R76, R77). -/
inductive Reject where
  | illegalOpcode
  | reservedBits
deriving DecidableEq, Repr

/-- The register names of 10_state R37. -/
inductive RegName where
  | status
  | finfo
  | h
  | klen
  | size
  | cap
  | icur
  | loadf
  | config
  | capmax
  | basis
  | prime
deriving DecidableEq, Repr

/-- The pseudo-commands (R81). A string operand is its sequence of UTF-8 bytes (R10). -/
inductive Pseudo where
  | key (s : Key)
  | hash (s : Key)
  | hashk (s : Key)
  | put (s : Key) (v : Word)
  | lookup (s : Key)
  | delete (s : Key)
deriving DecidableEq, Repr

/-- What one line of assembler text says (R80, R81): nothing, a command, a pseudo-command, or no line of the
language. -/
inductive AsmLine where
  | blank
  | cmd (i : Instr)
  | pseudo (p : Pseudo)
  | bad
deriving DecidableEq, Repr

end Sys2Proof
end

