-- ==== Sys2Proof/WellFormed.lean ====
section
/-! DEFINITION. What is well formed: the legal parameters (spec 00_scope R8) and the command words that spell
a command (30_encoding R71, R73, R76, R77). A term of `Instr` needs no check: each operand has exactly
the width its format gives it, so every term is an instruction some word spells. The words' check is
written from the tables of R71 and R73 on its own and shares no definition with the decoder. -/

namespace Sys2Proof

/-- The legal values of R8: `KEY_MAX` from 1, `CAP_MAX` from 127 (the upper bounds are in the types). -/
def Config.wf (c : Config) : Bool :=
  1 ≤ c.keyMax.toNat && 127 ≤ c.capMax.toNat

/-- The assigned opcodes, format by format (R71, R73). -/
def opcodesOfFormat : Format → List Nat
  | .Z => [0x00, 0x01, 0x10, 0x12, 0x20, 0x31, 0x32, 0x40, 0x41]
  | .B => [0x11, 0x21]
  | .R => [0x02]
  | .X => [0x22]
  | .V => [0x30]

/-- How many low bits of `arg` carry the operand; the bits above must be zero (R71). -/
def operandBits : Format → Nat
  | .Z => 0
  | .B => 8
  | .R => 8
  | .X => 16
  | .V => 64

/-- The opcode of `w` is one of the format's. -/
def CmdWord.hasFormat (f : Format) (w : CmdWord) : Bool :=
  (opcodesOfFormat f).contains (w.toNat / 2 ^ 64)

/-- The opcode is assigned (R76). -/
def CmdWord.opAssigned (w : CmdWord) : Bool :=
  [Format.Z, .B, .R, .X, .V].any fun f => CmdWord.hasFormat f w

/-- No must-be-zero bit of the opcode's format is 1 (R77). -/
def CmdWord.reservedZero (w : CmdWord) : Bool :=
  [Format.Z, .B, .R, .X, .V].all fun f =>
    !(CmdWord.hasFormat f w) || w.toNat % 2 ^ 64 < 2 ^ operandBits f

/-- The word spells a command: assigned opcode, reserved bits zero. -/
def CmdWord.wf (w : CmdWord) : Bool :=
  CmdWord.opAssigned w && CmdWord.reservedZero w

end Sys2Proof
end

