-- ==== Sys2Proof/Decode.lean ====
section
/-! DEFINITION. Decoding and encoding of command words (spec 30_encoding R70 to R73, R76, R77), the register
numbers of 10_state R37, and the two functions of the fixed interface that read a word. -/

namespace Sys2Proof

/-- `op = cmd[71:64]` (R70). -/
def CmdWord.op (w : CmdWord) : Byte := w.extractLsb' 64 8

/-- `arg = cmd[63:0]` (R70). -/
def CmdWord.arg (w : CmdWord) : Word := w.extractLsb' 0 64

/-- A command word from its two fields: `{op, arg}` (R70). -/
def CmdWord.mk (op : Byte) (arg : Word) : CmdWord := op ++ arg

/-- Format Z: no operand, `arg[63:0]` must be zero (R71). -/
def decodeZ (i : Instr) (arg : Word) : Except Reject Instr :=
  if arg = 0#64 then .ok i else .error .reservedBits

/-- Formats B and R: the operand is `arg[7:0]`, `arg[63:8]` must be zero (R71, R72). -/
def decodeByte (f : Byte → Instr) (arg : Word) : Except Reject Instr :=
  if arg.extractLsb' 8 56 = 0#56 then .ok (f (arg.extractLsb' 0 8)) else .error .reservedBits

/-- Format X: the operand is `arg[15:0]`, `arg[63:16]` must be zero (R71, R72). -/
def decodeX (f : BitVec 16 → Instr) (arg : Word) : Except Reject Instr :=
  if arg.extractLsb' 16 48 = 0#48 then .ok (f (arg.extractLsb' 0 16)) else .error .reservedBits

/-- Format V: the operand is all of `arg` (R71, R72). -/
def decodeV (f : Word → Instr) (arg : Word) : Except Reject Instr :=
  .ok (f arg)

/-- The opcode map (R73): the opcode first, then the reserved bits of its format. -/
def decodeFields (op : Byte) (arg : Word) : Except Reject Instr :=
  match op with
  | 0x00#8 => decodeZ .nop arg
  | 0x01#8 => decodeZ .construct arg
  | 0x02#8 => decodeByte .rdreg arg
  | 0x10#8 => decodeZ .hinit arg
  | 0x11#8 => decodeByte .habsorb arg
  | 0x12#8 => decodeZ .hkey arg
  | 0x20#8 => decodeZ .kclr arg
  | 0x21#8 => decodeByte .kpush arg
  | 0x22#8 => decodeX .kread arg
  | 0x30#8 => decodeV .insert arg
  | 0x31#8 => decodeZ .get arg
  | 0x32#8 => decodeZ .remove arg
  | 0x40#8 => decodeZ .itstart arg
  | 0x41#8 => decodeZ .itnext arg
  | _ => .error .illegalOpcode

/-- The decoder: total on every one of the `2^72` words. -/
def decode (w : CmdWord) : Except Reject Instr :=
  decodeFields (CmdWord.op w) (CmdWord.arg w)

/-- The opcode byte of a command (R73). -/
def Instr.opcode : Instr → Byte
  | .nop => 0x00#8
  | .construct => 0x01#8
  | .rdreg _ => 0x02#8
  | .hinit => 0x10#8
  | .habsorb _ => 0x11#8
  | .hkey => 0x12#8
  | .kclr => 0x20#8
  | .kpush _ => 0x21#8
  | .kread _ => 0x22#8
  | .insert _ => 0x30#8
  | .get => 0x31#8
  | .remove => 0x32#8
  | .itstart => 0x40#8
  | .itnext => 0x41#8

/-- The `arg` field of a command: its operand in the low bits, zeros above (R71, R72). -/
def Instr.argField : Instr → Word
  | .rdreg r => r.setWidth 64
  | .habsorb b => b.setWidth 64
  | .kpush b => b.setWidth 64
  | .kread i => i.setWidth 64
  | .insert v => v
  | .nop => 0#64
  | .construct => 0#64
  | .hinit => 0#64
  | .hkey => 0#64
  | .kclr => 0#64
  | .get => 0#64
  | .remove => 0#64
  | .itstart => 0#64
  | .itnext => 0#64

/-- The encoder. -/
def encode (i : Instr) : CmdWord := CmdWord.mk i.opcode i.argField

/-- The mnemonic of a command (R73). -/
def Instr.mnemonic : Instr → String
  | .nop => "NOP"
  | .construct => "CONSTRUCT"
  | .rdreg _ => "RDREG"
  | .hinit => "HINIT"
  | .habsorb _ => "HABSORB"
  | .hkey => "HKEY"
  | .kclr => "KCLR"
  | .kpush _ => "KPUSH"
  | .kread _ => "KREAD"
  | .insert _ => "INSERT"
  | .get => "GET"
  | .remove => "REMOVE"
  | .itstart => "ITSTART"
  | .itnext => "ITNEXT"

/-- The register of a number, none for `0x0C` to `0xFF` (10_state R37). -/
def RegName.ofNumber : Byte → Option RegName
  | 0x00#8 => some .status
  | 0x01#8 => some .finfo
  | 0x02#8 => some .h
  | 0x03#8 => some .klen
  | 0x04#8 => some .size
  | 0x05#8 => some .cap
  | 0x06#8 => some .icur
  | 0x07#8 => some .loadf
  | 0x08#8 => some .config
  | 0x09#8 => some .capmax
  | 0x0A#8 => some .basis
  | 0x0B#8 => some .prime
  | _ => none

/-- The number of a register (10_state R37). -/
def RegName.number : RegName → Byte
  | .status => 0x00#8
  | .finfo => 0x01#8
  | .h => 0x02#8
  | .klen => 0x03#8
  | .size => 0x04#8
  | .cap => 0x05#8
  | .icur => 0x06#8
  | .loadf => 0x07#8
  | .config => 0x08#8
  | .capmax => 0x09#8
  | .basis => 0x0A#8
  | .prime => 0x0B#8

/-- The command word whose low `nbits` bits are those of `w` and whose other bits are 0. The
opcode table numbers the 72-bit word as R70 does, bit 0 the least significant. -/
def CmdWord.ofTableBits (nbits w : Nat) : CmdWord := BitVec.ofNat 72 (w % 2 ^ nbits)

/-- The instruction the decoder reads from a row's bits. -/
def decodeTableWord (nbits w : Nat) : Option Instr :=
  match decode (CmdWord.ofTableBits nbits w) with
  | .ok i => some i
  | .error _ => none

end Sys2Proof
end

