-- ==== Sys2Proof/Machine/State.lean ====
section
/-! DEFINITION. The state of HTCORE (spec 10_state R20) as plain data, the value of every piece after reset (R41),
and the types a step answers with. -/

namespace Sys2Proof.Machine

/-- A slot record (R28). -/
structure Slot where
  occ : Bool
  key : Key
  val : Word
deriving DecidableEq, Repr

/-- `EMPTY` (R12, R28). -/
def Slot.empty : Slot := { occ := false, key := [], val := 0#64 }

/-- An indexed memory: the (index, content) pairs whose content is not what an unlisted index reads
as, indices strictly rising. A slot bank is a `Memory Slot`, the key buffer a `Memory Byte`. -/
abbrev Memory (α : Type) := List (Nat × α)

/-- What an unlisted slot reads as: DESIGN CHOICE `EMPTY` (entry 4). -/
def Slot.unlisted : Slot := Slot.empty

/-- What an unlisted key-buffer byte reads as: DESIGN CHOICE 0 (entry 3). -/
def keyByteUnlisted : Byte := 0#8

/-- The canonical form from index `lo` up: rising indices, none below `lo`, no entry equal to `d`. -/
def Memory.wfFrom {α : Type} [DecidableEq α] (d : α) (lo : Nat) : Memory α → Bool
  | [] => true
  | (a, v) :: m => decide (lo ≤ a) && decide (v ≠ d) && Memory.wfFrom d (a + 1) m

/-- The canonical form of a memory whose unlisted indices read as `d`. -/
def Memory.wf {α : Type} [DecidableEq α] (d : α) (m : Memory α) : Bool :=
  Memory.wfFrom d 0 m

/-- The seven causes of a fault of the block (60_exceptions R191). A cause is recorded in the next
state (R200); it never stops the machine. -/
inductive Cause where
  | illegalOpcode
  | reservedBits
  | badRegister
  | keyOverflow
  | noTable
  | iterInactive
  | capacityExhausted
deriving DecidableEq, Repr

/-- What a response word says (30_encoding R74): `absent` is the kind NONE. -/
inductive Response where
  | done
  | data (v : Word)
  | absent
  | fault (v : Word)
deriving DecidableEq, Repr

/-- What the host can do to the block (30_encoding R82, R83, 70_reset R220): present a command word;
assert `rst` between commands; or assert it while the command `w` is in flight. -/
inductive HostInput where
  | cmd (w : CmdWord)
  | rst
  | cmdThenRst (w : CmdWord)
deriving DecidableEq, Repr

/-- The state of R20, the hardwired parameters of R8 and R38 (`cfg`, entry 1), and two fields of the
model's own: `inputs`, what the host does next (entry 5), and `rsps`, the response words delivered so
far, oldest first (entry 6). -/
structure State where
  cfg : Config
  h : Word
  keybuf : Memory Byte
  klen : BitVec 16
  slot0 : Memory Slot
  slot1 : Memory Slot
  bank : Bool
  cap : BitVec 32
  size : BitVec 32
  icur : BitVec 32
  tvalid : Bool
  itact : Bool
  fault : Bool
  fcause : Byte
  fop : Byte
  inputs : List HostInput
  rsps : List RspWord
deriving DecidableEq, Repr

/-- The state after reset of a block with the parameters `c` (R41, R220): `H = BASIS`, everything else
the spec gives a value 0; the key-buffer bytes and slot memory, unspecified there, list nothing
(entries 3 and 4); no input and no response. -/
def State.resetWith (c : Config) : State where
  cfg := c
  h := c.basis
  keybuf := []
  klen := 0#16
  slot0 := []
  slot1 := []
  bank := false
  cap := 0#32
  size := 0#32
  icur := 0#32
  tvalid := false
  itact := false
  fault := false
  fcause := 0#8
  fop := 0#8
  inputs := []
  rsps := []

/-- The machine right after reset, with the parameters of `Config.default`. -/
def State.reset : State := State.resetWith Config.default

/-- Why a step stops with a fault: never. "Every command word, in every state, has exactly one outcome:
a new state and one response word" (60_exceptions R190); the block's own faults are the causes
above, recorded in the next state (entry 9). -/
inductive Fault where
deriving DecidableEq, Repr

/-- Why a step is refused. -/
inductive Refusal where
  /-- Raised by an arm of `exec` whose instruction has no meaning yet; safe. No arm raises it. -/
  | notModelled (mnemonic : String)
deriving DecidableEq, Repr

end Sys2Proof.Machine
end

