-- ==== Sys2Proof/Machine/Ops.lean ====
section
/-! DEFINITION. The named operations over memory, registers and the channels: indexed memories, the banks and
the slot access primitives (spec 20_memory R54, R55), the response word (30_encoding R74, R75), taking
a fault (60_exceptions R200), the fault state (R202), and reset, the only way out of it (70_reset R220). -/

namespace Sys2Proof.Machine

/-! ## Indexed memories -/

/-- The content of index `a`. -/
def Memory.read {α : Type} (d : α) : Memory α → Nat → α
  | [], _ => d
  | (b, w) :: m, a => if b = a then w else Memory.read d m a

/-- The memory without index `a`. -/
def Memory.erase {α : Type} (m : Memory α) (a : Nat) : Memory α :=
  m.filter fun e => decide (e.1 ≠ a)

/-- The memory with the pair `(a, v)` put before the first larger index. -/
def Memory.place {α : Type} (a : Nat) (v : α) : Memory α → Memory α
  | [] => [(a, v)]
  | (b, w) :: m => if a < b then (a, v) :: (b, w) :: m else (b, w) :: Memory.place a v m

/-- The memory with `v` at index `a`; no pair is listed where `v` is what an unlisted index reads as. -/
def Memory.write {α : Type} [DecidableEq α] (d : α) (m : Memory α) (a : Nat) (v : α) : Memory α :=
  if v = d then Memory.erase m a else Memory.place a v (Memory.erase m a)

/-- The memory with the list `vs` at `a`, `a + 1`, and so on. -/
def Memory.writeList {α : Type} [DecidableEq α] (d : α) : Memory α → Nat → List α → Memory α
  | m, _, [] => m
  | m, a, v :: vs => Memory.writeList d (Memory.write d m a v) (a + 1) vs

/-- The memory with `v` at every index below `n`. -/
def Memory.fill {α : Type} [DecidableEq α] (d : α) (v : α) (n : Nat) (m : Memory α) : Memory α :=
  (List.range n).foldl (fun m i => Memory.write d m i v) m

/-! ## The key buffer (10_state R25, R27) -/

/-- `KEYBUF[i]`. -/
def State.keyByte (s : State) (i : Nat) : Byte := Memory.read keyByteUnlisted s.keybuf i

/-! ## The banks of slot memory (10_state R29) -/

/-- `SLOT[b]`. -/
def State.bankMem (s : State) : Bool → Memory Slot
  | false => s.slot0
  | true => s.slot1

/-- `SLOT[b] <- m`. -/
def State.setBankMem (s : State) : Bool → Memory Slot → State
  | false, m => { s with slot0 := m }
  | true, m => { s with slot1 := m }

/-- `SLOT[b][i]`. -/
def State.bankSlot (s : State) (b : Bool) (i : Nat) : Slot :=
  Memory.read Slot.unlisted (s.bankMem b) i

/-- `SlotRead(i)` (20_memory R54): the record `SLOT[BANK][i]`. -/
def State.slotRead (s : State) (i : Nat) : Slot := s.bankSlot s.bank i

/-- `SlotWrite(i, r)` (20_memory R55): `SLOT[BANK][i] <- r`. -/
def State.slotWrite (s : State) (i : Nat) (r : Slot) : State :=
  s.setBankMem s.bank (Memory.write Slot.unlisted (s.bankMem s.bank) i r)

/-! ## Responses -/

/-- The `kind` field: DONE 0, DATA 1, NONE 2, FAULT 3 (30_encoding R74). -/
def Response.kind : Response → BitVec 2
  | .done => 0#2
  | .data _ => 1#2
  | .absent => 2#2
  | .fault _ => 3#2

/-- The `data` field; 0 for DONE and NONE (30_encoding R74). -/
def Response.payload : Response → Word
  | .done => 0#64
  | .data v => v
  | .absent => 0#64
  | .fault v => v

/-- The response word `{kind, data}` (30_encoding R74). -/
def Response.word (r : Response) : RspWord := r.kind ++ r.payload

/-- Deliver a response (30_encoding R74, R83). -/
def State.respond (r : Response) (s : State) : State :=
  { s with rsps := s.rsps ++ [r.word] }

/-! ## Taking a fault, the fault state, reset -/

/-- The cause codes (60_exceptions R191). -/
def Cause.code : Cause → Byte
  | .illegalOpcode => 1#8
  | .reservedBits => 2#8
  | .badRegister => 3#8
  | .keyOverflow => 4#8
  | .noTable => 5#8
  | .iterInactive => 6#8
  | .capacityExhausted => 7#8

/-- The fault record as `FINFO` shows it and as a FAULT response carries it: `FCAUSE` in bits 7 to 0,
`FOP` in bits 15 to 8, zeros above (10_state R36, 30_encoding R75). -/
def State.faultRecord (s : State) : Word := (s.fop ++ s.fcause : BitVec 16).setWidth 64

/-- The answer of the fault state: the stored record, nothing else changes (60_exceptions R202). -/
def State.refuse (s : State) : State := s.respond (.fault s.faultRecord)

/-- `raise <cause>` by a command with opcode `op` (60_exceptions R199, R200): three registers change,
then the response carries the new record. -/
def State.raise (cause : Cause) (op : Byte) (s : State) : State :=
  State.refuse { s with fault := true, fcause := cause.code, fop := op }

/-- Check (1) of 60_exceptions R199, common to every command but RDREG of an assigned register: in the
fault state the command is refused (R202), otherwise `run` is its effect. -/
def State.unlessFaulted (s : State) (run : State → State) : State :=
  if s.fault then s.refuse else run s

/-- Assertion of `rst` (70_reset R220, R221), the only exit from the fault state (60_exceptions R204):
every piece of the block's state takes its reset value; the parameters are hardwired, the host's
inputs and the responses already delivered are outside the block. -/
def State.assertReset (s : State) : State :=
  { State.resetWith s.cfg with inputs := s.inputs, rsps := s.rsps }

end Sys2Proof.Machine
end

