-- ==== Sys2Proof/Machine/Fnv.lean ====
section
/-! DEFINITION. The arithmetic of the hash unit (spec 40_hash R100 to R105) and the index arithmetic of the
table engine (42_table R130, R133, R134). Exact in Nat, narrowed where the rule narrows. -/

namespace Sys2Proof.Machine

/-- `hi(w) = w[63:32]` (R100). -/
def hi (w : Word) : Nat := w.toNat / 2 ^ 32

/-- `lo(w) = w[31:0]` (R100). -/
def lo (w : Word) : Nat := w.toNat % 2 ^ 32

/-- `fnv_mul` (R101): four partial products of 32-bit halves. -/
def fnvMul (c : Config) (x : Word) : Word :=
  let hh := hi x * hi c.prime
  let hl := hi x * lo c.prime
  let lh := lo x * hi c.prime
  let ll := lo x * lo c.prime
  let mid := (hl + lh + (if c.mulHH then hh else 0)) % 2 ^ 64
  BitVec.ofNat 64 ((mid <<< 32 + ll) % 2 ^ 64)

/-- `fnv_reduce(m) = m mod (2^64 − 1)` (R102). -/
def fnvReduce (m : Word) : Word := BitVec.ofNat 64 (m.toNat % (2 ^ 64 - 1))

/-- `fnv_step` (R103): exclusive-or with the zero-extended byte, multiply, reduce. -/
def fnvStep (c : Config) (h : Word) (b : Byte) : Word :=
  fnvReduce (fnvMul c (h ^^^ b.setWidth 64))

/-- `fnv_hash` (R104): one round per byte, first byte first, from `BASIS`. -/
def fnvHash (c : Config) (k : Key) : Word := k.foldl (fnvStep c) c.basis

/-- `home(d, c) = (d mod 2^IDX_BITS) mod c` (R130). The spec calls it with `c >= 127` only; for `c = 0`,
in states no run reaches, Lean's remainder is the dividend (entry 11). -/
def home (cfg : Config) (d : Word) (c : Nat) : Nat := d.toNat % 2 ^ cfg.idxBits.num % c

/-- `newcap` (R134). -/
def newcap (c : Nat) : Nat := if c < growthSwitch then 2 * c else 8 * c / 5

end Sys2Proof.Machine
end

