-- ==== Sys2Proof/Machine/Flags.lean ====
section
/-! DEFINITION. The conditions and status words the block computes: the slot comparator (spec 42_table R132),
the occupancy tracker (R133), and the two computed registers STATUS and FINFO (10_state R35, R36). The
block has no condition codes (R33). -/

namespace Sys2Proof.Machine

/-- `match(s, k)` (R132): occupied, and the stored key equals `k`. -/
def Slot.holds (r : Slot) (k : Key) : Bool := r.occ && decide (r.key = k)

/-- `over(n, c)` (R133): `4 * n > 3 * c`, exact. -/
def overLoad (n c : Nat) : Bool := decide (lfNum * c < lfDen * n)

/-- `STATUS` (10_state R35): bit 0 `TVALID`, bit 1 `ITACT`, bit 2 `FAULT`, bit 3 `BANK`, zeros above. -/
def State.statusWord (s : State) : Word :=
  (BitVec.ofBool s.bank ++ BitVec.ofBool s.fault ++ BitVec.ofBool s.itact ++ BitVec.ofBool s.tvalid
    : BitVec 4).setWidth 64

/-- `FINFO` (10_state R36). -/
def State.finfoWord (s : State) : Word := s.faultRecord

end Sys2Proof.Machine
end

