-- ==== Sys2Proof/Machine/Operands.lean ====
section
/-! DEFINITION. The operands that are not in the command word: the key `KEY` (spec 10_state R27, 30_encoding R72),
the home slot of a key, the one addressing mode (20_memory R56, 42_table R130), the register a number
of RDREG names (10_state R37, R38), and the iterator's next slot (43_iterate R172). -/

namespace Sys2Proof.Machine

/-- `KEY = KEYBUF[0 .. KLEN−1]` (10_state R27). -/
def State.key (s : State) : Key := (List.range s.klen.toNat).map s.keyByte

/-- The digest of `KEY`, `fnv_hash(KEY)`. -/
def State.keyDigest (s : State) : Word := fnvHash s.cfg s.key

/-- The home index of `KEY` at the current capacity (42_table R130, 20_memory R56). -/
def State.homeIndex (s : State) : Nat := home s.cfg s.keyDigest s.cap.toNat

/-- `LOADF`: `LF_NUM` in bits 31 to 0, `LF_DEN` in bits 63 to 32 (10_state R38). -/
def loadfWord : Word := BitVec.ofNat 32 lfDen ++ BitVec.ofNat 32 lfNum

/-- `CONFIG`: `KEY_MAX` in bits 15 to 0, `IDX_BITS` in bits 23 to 16, `MUL_HH` in bit 24 (10_state R38). -/
def configWord (c : Config) : Word :=
  (BitVec.ofBool c.mulHH ++ BitVec.ofNat 8 c.idxBits.num ++ c.keyMax : BitVec 25).setWidth 64

/-- A register's value, zero-extended to 64 bits (10_state R35 to R38). -/
def State.readReg (s : State) : RegName → Word
  | .status => s.statusWord
  | .finfo => s.finfoWord
  | .h => s.h
  | .klen => s.klen.setWidth 64
  | .size => s.size.setWidth 64
  | .cap => s.cap.setWidth 64
  | .icur => s.icur.setWidth 64
  | .loadf => loadfWord
  | .config => configWord s.cfg
  | .capmax => s.cfg.capMax.setWidth 64
  | .basis => s.cfg.basis
  | .prime => s.cfg.prime

/-- The first occupied slot from `ICUR` up, below `CAP` (43_iterate R172). -/
def State.nextOccupied (s : State) : Option Nat :=
  (List.range' s.icur.toNat (s.cap.toNat - s.icur.toNat)).find? fun i => (s.slotRead i).occ

end Sys2Proof.Machine
end

