-- ==== Sys2Proof/Machine/HashUnit.lean ====
section
/-! DEFINITION. The hash unit's commands HINIT, HABSORB and HKEY (spec 40_hash R108 to R110). -/

namespace Sys2Proof.Machine

/-- HINIT (R108). -/
def execHinit (s : State) : Host.Outcome State Fault Refusal :=
  .next (s.unlessFaulted fun s => State.respond .done { s with h := s.cfg.basis })

/-- HABSORB (R109). -/
def execHabsorb (imm8 : Byte) (s : State) : Host.Outcome State Fault Refusal :=
  .next (s.unlessFaulted fun s => State.respond .done { s with h := fnvStep s.cfg s.h imm8 })

/-- HKEY (R110). -/
def execHkey (s : State) : Host.Outcome State Fault Refusal :=
  .next (s.unlessFaulted fun s => State.respond (.data s.keyDigest) { s with h := s.keyDigest })

end Sys2Proof.Machine
end

