-- ==== Sys2Proof/Machine/KeyBuffer.lean ====
section
/-! DEFINITION. The key buffer's commands KCLR, KPUSH and KREAD (spec 41_keybuf R120 to R122). -/

namespace Sys2Proof.Machine

/-- `KEYBUF[KLEN] <- b; KLEN <- KLEN + 1` (R121). -/
def State.pushKeyByte (b : Byte) (s : State) : State :=
  { s with
    keybuf := Memory.write keyByteUnlisted s.keybuf s.klen.toNat b
    klen := s.klen + 1#16 }

/-- `KEYBUF[0 .. len(k) − 1] <- k; KLEN <- len(k)` (43_iterate R172). -/
def State.loadKey (k : Key) (s : State) : State :=
  { s with
    keybuf := Memory.writeList keyByteUnlisted s.keybuf 0 k
    klen := BitVec.ofNat 16 k.length }

/-- KCLR (R120). -/
def execKclr (s : State) : Host.Outcome State Fault Refusal :=
  .next (s.unlessFaulted fun s => State.respond .done { s with klen := 0#16 })

/-- KPUSH (R121). -/
def execKpush (imm8 : Byte) (s : State) : Host.Outcome State Fault Refusal :=
  .next (s.unlessFaulted fun s =>
    if s.klen = s.cfg.keyMax then s.raise .keyOverflow (Instr.kpush imm8).opcode
    else State.respond .done (s.pushKeyByte imm8))

/-- KREAD (R122). -/
def execKread (idx : BitVec 16) (s : State) : Host.Outcome State Fault Refusal :=
  .next (s.unlessFaulted fun s =>
    if idx.toNat < s.klen.toNat then s.respond (.data ((s.keyByte idx.toNat).setWidth 64))
    else s.respond .absent)

end Sys2Proof.Machine
end

