-- ==== Sys2Proof/Machine/Iterate.lean ====
section
/-! DEFINITION. The iterator's commands ITSTART and ITNEXT (spec 43_iterate R171, R172). -/

namespace Sys2Proof.Machine

/-- ITSTART (R171). -/
def execItstart (s : State) : Host.Outcome State Fault Refusal :=
  .next (s.unlessFaulted fun s =>
    if !s.tvalid then s.raise .noTable Instr.itstart.opcode
    else State.respond .done { s with icur := 0#32, itact := true })

/-- ITNEXT (R172). -/
def execItnext (s : State) : Host.Outcome State Fault Refusal :=
  .next (s.unlessFaulted fun s =>
    if !s.tvalid then s.raise .noTable Instr.itnext.opcode
    else if !s.itact then s.raise .iterInactive Instr.itnext.opcode
    else
      match s.nextOccupied with
      | some i =>
        State.respond (.data (s.slotRead i).val)
          { s.loadKey (s.slotRead i).key with icur := BitVec.ofNat 32 (i + 1) }
      | none => State.respond .absent { s with icur := s.cap })

end Sys2Proof.Machine
end

