-- ==== Sys2Proof/Machine/System.lean ====
section
/-! DEFINITION. The system commands NOP and RDREG (spec 44_system R180, R181). -/

namespace Sys2Proof.Machine

/-- NOP (R180). -/
def execNop (s : State) : Host.Outcome State Fault Refusal :=
  .next (s.unlessFaulted (State.respond .done))

/-- RDREG (R181): an assigned register is read in every state, also in the fault state (60_exceptions
R203); an unassigned number raises BadRegister (R194), or is refused in the fault state (R202). -/
def execRdreg (regno : Byte) (s : State) : Host.Outcome State Fault Refusal :=
  match RegName.ofNumber regno with
  | some r => .next (s.respond (.data (s.readReg r)))
  | none => .next (s.unlessFaulted (State.raise .badRegister (Instr.rdreg regno).opcode))

end Sys2Proof.Machine
end

