-- ==== Sys2Proof/Machine/Table.lean ====
section
/-! DEFINITION. The table engine: the resize sequencer (spec 42_table R146, R147) and the commands CONSTRUCT,
INSERT, GET and REMOVE (R136, R140, R152, R155). -/

namespace Sys2Proof.Machine

/-- One placement of the rehash (R146): an occupied record of the old sequence goes, whole, to its home
index under the capacity `nc`, over whatever an earlier placement put there. -/
def placeRecord (cfg : Config) (nc : Nat) (m : Memory Slot) (r : Slot) : Memory Slot :=
  if r.occ then Memory.write Slot.unlisted m (home cfg (fnvHash cfg r.key) nc) r else m

/-- The new sequence a resize builds in a bank that held `m` (R146): the first `nc` slots `EMPTY`, then the
old slots placed in ascending index order (R147). -/
def State.rehash (s : State) (nc : Nat) (m : Memory Slot) : Memory Slot :=
  (List.range s.cap.toNat).foldl (fun m i => placeRecord s.cfg nc m (s.slotRead i))
    (Memory.fill Slot.unlisted Slot.empty nc m)

/-- `Resize()` (R146): `SIZE`, `H`, the key buffer and `ICUR` are not written. -/
def State.resize (s : State) : State :=
  let nc := newcap s.cap.toNat
  let nb := !s.bank
  { s.setBankMem nb (s.rehash nc (s.bankMem nb)) with
    bank := nb
    cap := BitVec.ofNat 32 nc }

/-- CONSTRUCT (R136). -/
def execConstruct (s : State) : Host.Outcome State Fault Refusal :=
  .next (s.unlessFaulted fun s => State.respond .done
    { s with
      bank := false
      slot0 := Memory.fill Slot.unlisted Slot.empty capInit s.slot0
      cap := BitVec.ofNat 32 capInit
      size := 0#32
      icur := 0#32
      tvalid := true
      itact := false })

/-- The home slot is empty, so an INSERT of `KEY` fills it (R140). -/
def State.insertFills (s : State) : Bool := !(s.slotRead s.homeIndex).occ

/-- An INSERT of `KEY` fills a slot and is then over the load factor (R133, R140). -/
def State.insertGrows (s : State) : Bool := s.insertFills && overLoad (s.size.toNat + 1) s.cap.toNat

/-- The condition of CapacityExhausted (R143). -/
def State.insertExhausts (s : State) : Bool :=
  s.insertGrows && decide (s.cfg.capMax.toNat < newcap s.cap.toNat)

/-- The writes of INSERT before a resize (R140, R141). -/
def State.storePair (val : Word) (s : State) : State :=
  { s.slotWrite s.homeIndex { occ := true, key := s.key, val := val } with
    h := s.keyDigest
    itact := false
    size := if s.insertFills then BitVec.ofNat 32 (s.size.toNat + 1) else s.size }

/-- INSERT (R140). -/
def execInsert (val : Word) (s : State) : Host.Outcome State Fault Refusal :=
  .next (s.unlessFaulted fun s =>
    if !s.tvalid then s.raise .noTable (Instr.insert val).opcode
    else if s.insertExhausts then s.raise .capacityExhausted (Instr.insert val).opcode
    else State.respond .done
      (if s.insertGrows then (s.storePair val).resize else s.storePair val))

/-- GET (R152). -/
def execGet (s : State) : Host.Outcome State Fault Refusal :=
  .next (s.unlessFaulted fun s =>
    if !s.tvalid then s.raise .noTable Instr.get.opcode
    else
      let r := s.slotRead s.homeIndex
      let t := { s with h := s.keyDigest }
      if r.holds s.key then t.respond (.data r.val) else t.respond .absent)

/-- The writes of a REMOVE that found its key (R155). -/
def State.clearHome (s : State) : State :=
  { s.slotWrite s.homeIndex Slot.empty with
    h := s.keyDigest
    itact := false
    size := s.size - 1#32 }

/-- REMOVE (R155). -/
def execRemove (s : State) : Host.Outcome State Fault Refusal :=
  .next (s.unlessFaulted fun s =>
    if !s.tvalid then s.raise .noTable Instr.remove.opcode
    else
      let r := s.slotRead s.homeIndex
      if r.holds s.key then State.respond (.data r.val) s.clearHome
      else State.respond .absent { s with h := s.keyDigest })

end Sys2Proof.Machine
end

