-- ==== Sys2Proof/Machine/Dispatch.lean ====
section
/-! DEFINITION. One arm per command (spec 30_encoding R73). -/

namespace Sys2Proof.Machine

def exec (i : Instr) (s : State) : Host.Outcome State Fault Refusal :=
  match i with
  | .nop => Sys2Proof.Machine.execNop s
  | .construct => Sys2Proof.Machine.execConstruct s
  | .rdreg regno => Sys2Proof.Machine.execRdreg regno s
  | .hinit => Sys2Proof.Machine.execHinit s
  | .habsorb imm8 => Sys2Proof.Machine.execHabsorb imm8 s
  | .hkey => Sys2Proof.Machine.execHkey s
  | .kclr => Sys2Proof.Machine.execKclr s
  | .kpush imm8 => Sys2Proof.Machine.execKpush imm8 s
  | .kread idx => Sys2Proof.Machine.execKread idx s
  | .insert val => Sys2Proof.Machine.execInsert val s
  | .get => Sys2Proof.Machine.execGet s
  | .remove => Sys2Proof.Machine.execRemove s
  | .itstart => Sys2Proof.Machine.execItstart s
  | .itnext => Sys2Proof.Machine.execItnext s

end Sys2Proof.Machine
end

