-- ==== Sys2Proof/Machine/Accept.lean ====
section
/-! DEFINITION. What the block does with an accepted command word (spec 60_exceptions R199): decoding and dispatch,
apart from the step so that a repair may mend it. -/

namespace Sys2Proof.Machine

/-- The cause a word that spells no command raises (R192, R193). -/
def rejectCause : Reject → Cause
  | .illegalOpcode => .illegalOpcode
  | .reservedBits => .reservedBits

/-- An accepted command word (R199). -/
def acceptCommand (w : CmdWord) (s : State) : Host.Outcome State Fault Refusal :=
  match decode w with
  | .ok i => exec i s
  | .error e => .next (s.unlessFaulted (State.raise (rejectCause e) (CmdWord.op w)))

end Sys2Proof.Machine
end

