-- ==== Sys2Proof/Machine/Step.lean ====
section
/-! DEFINITION. One step: the block takes the next thing the host does (spec 00_scope R17, 30_encoding R83). -/

namespace Sys2Proof.Machine

/-- One step. A command word is decoded and executed, or, where it spells no command, rejected with the
cause its check names (60_exceptions R199, R192, R193), in the fault state like any other command
(R202). `rst` resets the block; a command in flight when `rst` is asserted is abandoned without a
response (30_encoding R83). With no input the block is idle, all state retained (60_exceptions R215). -/
def step (s : State) : Host.Outcome State Fault Refusal :=
  match s.inputs with
  | [] => .next s
  | .cmd w :: rest => acceptCommand w { s with inputs := rest }
  | .rst :: rest => .next (State.assertReset { s with inputs := rest })
  | .cmdThenRst _ :: rest => .next (State.assertReset { s with inputs := rest })

/-- `s` with the command word of a table row presented next. -/
def State.withFetchWord (s : State) (nbits w : Nat) : State :=
  { s with inputs := .cmd (CmdWord.ofTableBits nbits w) :: s.inputs }

end Sys2Proof.Machine
end

