-- ==== Sys2Proof/Machine/Assembler.lean ====
section
/-! DEFINITION. The textual form of a command (spec 30_encoding R80) and the pseudo-commands (R81). Neither is
behaviour of the block: text and pseudo-commands become command words before the block sees them. -/

namespace Sys2Proof.Machine

/-- The words of a line (R80): separated by spaces or tabs, up to `;`. A quoted character is one word,
also when it is a space or `;` (DESIGN CHOICE, entry 12). `acc` is the word being read, reversed. -/
def asmWords : List Char → List Char → List (List Char)
  | [], acc => if acc.isEmpty then [] else [acc.reverse]
  | '\'' :: c :: '\'' :: rest, acc => asmWords rest ('\'' :: c :: '\'' :: acc)
  | c :: rest, acc =>
    if c = ';' then (if acc.isEmpty then [] else [acc.reverse])
    else if c = ' ' ∨ c = '\t' then
      (if acc.isEmpty then asmWords rest [] else acc.reverse :: asmWords rest [])
    else asmWords rest (c :: acc)

/-- The value of a digit character in base `b`. -/
def asmDigit (b : Nat) (c : Char) : Option Nat :=
  let v :=
    if '0' ≤ c ∧ c ≤ '9' then some (c.toNat - '0'.toNat)
    else if 'a' ≤ c ∧ c ≤ 'f' then some (c.toNat - 'a'.toNat + 10)
    else if 'A' ≤ c ∧ c ≤ 'F' then some (c.toNat - 'A'.toNat + 10)
    else none
  v.filter (· < b)

/-- The value of a sequence of digits after the value `n`. -/
def asmDigits (b : Nat) : Nat → List Char → Option Nat
  | n, [] => some n
  | n, c :: cs =>
    match asmDigit b c with
    | some d => asmDigits b (n * b + d) cs
    | none => none

/-- A numeral: decimal, or hexadecimal after `0x` (R80). -/
def asmNumeral : List Char → Option Nat
  | [] => none
  | '0' :: 'x' :: cs => if cs.isEmpty then none else asmDigits 16 0 cs
  | cs => asmDigits 10 0 cs

/-- A numeral that fits in `n` bits. -/
def asmField (n : Nat) (cs : List Char) : Option (BitVec n) :=
  match asmNumeral cs with
  | some v => if v < 2 ^ n then some (BitVec.ofNat n v) else none
  | none => none

/-- The operand of format B: a numeral, or one ASCII character in single quotes (R80). -/
def asmByte : List Char → Option Byte
  | ['\'', c, '\''] => if c.toNat < 128 then some (BitVec.ofNat 8 c.toNat) else none
  | cs => asmField 8 cs

/-- The register names of 10_state R37. -/
def asmRegName (cs : List Char) : Option RegName :=
  [("STATUS", RegName.status), ("FINFO", .finfo), ("H", .h), ("KLEN", .klen), ("SIZE", .size),
    ("CAP", .cap), ("ICUR", .icur), ("LOADF", .loadf), ("CONFIG", .config), ("CAPMAX", .capmax),
    ("BASIS", .basis), ("PRIME", .prime)].findSome? fun p => if p.1.toList = cs then some p.2 else none

/-- The operand of format R: a numeral, or a register name (R80). -/
def asmRegister (cs : List Char) : Option Byte :=
  match asmRegName cs with
  | some r => some r.number
  | none => asmField 8 cs

/-- The commands of format Z by mnemonic (R73). -/
def asmFormatZ (cs : List Char) : Option Instr :=
  [Instr.nop, .construct, .hinit, .hkey, .kclr, .get, .remove, .itstart, .itnext].find? fun i =>
    i.mnemonic.toList = cs

/-- The commands with an operand, by mnemonic (R73). -/
def asmWithOperand (cs arg : List Char) : Option Instr :=
  if cs = "RDREG".toList then (asmRegister arg).map .rdreg
  else if cs = "HABSORB".toList then (asmByte arg).map .habsorb
  else if cs = "KPUSH".toList then (asmByte arg).map .kpush
  else if cs = "KREAD".toList then (asmField 16 arg).map .kread
  else if cs = "INSERT".toList then (asmField 64 arg).map .insert
  else none

/-- A space or a tab. -/
def asmBlank (c : Char) : Bool := c = ' ' || c = '\t'

/-- A string literal after its opening quote: its UTF-8 bytes, and the text after the closing quote
(R81, R10). No character is escaped, and every character up to the closing quote is part of the
string, `;` too, which starts no comment there (DESIGN CHOICE, entry 12). -/
def asmString : List Char → Option (Key × List Char)
  | [] => none
  | c :: cs =>
    if c = '"' then some ([], cs)
    else
      match asmString cs with
      | some (k, rest) => some ((String.utf8EncodeChar c).map (fun b => b.toBitVec) ++ k, rest)
      | none => none

/-- One numeral of a list, read reversed into `acc`: blanks around it are dropped, a blank inside it makes
it no numeral, and so does its absence (R81; DESIGN CHOICE, entry 12). -/
def asmListItem (acc : List Char) : Option Byte :=
  asmField 8 ((acc.dropWhile asmBlank).reverse.dropWhile asmBlank)

/-- The numerals of a list that is not empty, and the text after its closing bracket (R81). Commas
separate them (95_test_vectors T9); each comma stands between two numerals, so none may trail (DESIGN
CHOICE, entry 12). `acc` is the one being read, reversed. -/
def asmListItems : List Char → List Char → Option (Key × List Char)
  | [], _ => none
  | c :: cs, acc =>
    if c = ']' then (asmListItem acc).map fun b => ([b], cs)
    else if c = ',' then
      match asmListItem acc, asmListItems cs [] with
      | some b, some (k, rest) => some (b :: k, rest)
      | _, _ => none
    else asmListItems cs (c :: acc)

/-- A list of numerals after its opening bracket, and the text after the closing one (R81). Brackets with
nothing or only blanks between them are the empty sequence (DESIGN CHOICE, entry 12). -/
def asmBytes (text : List Char) : Option (Key × List Char) :=
  match text.dropWhile asmBlank with
  | ']' :: rest => some ([], rest)
  | items => asmListItems items []

/-- A byte sequence: a string literal or a list of numerals (R81). -/
def asmSequence : List Char → Option (Key × List Char)
  | [] => none
  | c :: cs => if c = '"' then asmString cs else if c = '[' then asmBytes cs else none

/-- A pseudo-command without a value, by name (R81). -/
def asmPseudoOf (m : List Char) (k : Key) : Option Pseudo :=
  if m = "KEY".toList then some (.key k)
  else if m = "HASH".toList then some (.hash k)
  else if m = "HASHK".toList then some (.hashk k)
  else if m = "LOOKUP".toList then some (.lookup k)
  else if m = "DELETE".toList then some (.delete k)
  else none

/-- One line that is a pseudo-command (R81), with a comment from `;` on (R80), but for a `;` inside a string
literal, which is a byte of the string; blanks may stand around the comma of PUT (DESIGN CHOICE,
entry 12). -/
def asmPseudo (text : List Char) : Option Pseudo :=
  let text := text.dropWhile asmBlank
  let m := text.takeWhile fun c => !asmBlank c
  match asmSequence ((text.drop m.length).dropWhile asmBlank) with
  | none => none
  | some (k, rest) =>
    match rest.dropWhile asmBlank with
    | ',' :: value =>
      match asmWords value [] with
      | [v] => if m = "PUT".toList then (asmField 64 v).map (Pseudo.put k) else none
      | _ => none
    | rest => if (asmWords rest []).isEmpty then asmPseudoOf m k else none

/-- One line of text (R80, R81). -/
def asmLine (text : String) : AsmLine :=
  match asmPseudo text.toList with
  | some p => .pseudo p
  | none =>
    match asmWords text.toList [] with
    | [] => .blank
    | [m] =>
      match asmFormatZ m with
      | some i => .cmd i
      | none => .bad
    | [m, a] =>
      match asmWithOperand m a with
      | some i => .cmd i
      | none => .bad
    | _ => .bad

/-- The commands a pseudo-command expands to (R81). -/
def expandPseudo : Pseudo → List Instr
  | .key s => .kclr :: s.map .kpush
  | .hash s => (.hinit :: s.map .habsorb) ++ [.rdreg RegName.h.number]
  | .hashk s => (.kclr :: s.map .kpush) ++ [.hkey]
  | .put s v => (.kclr :: s.map .kpush) ++ [.insert v]
  | .lookup s => (.kclr :: s.map .kpush) ++ [.get]
  | .delete s => (.kclr :: s.map .kpush) ++ [.remove]

/-- The inputs by which the host issues a list of commands. -/
def inputsOf (is : List Instr) : List HostInput := is.map fun i => .cmd (encode i)

end Sys2Proof.Machine
end

