-- ==== Sys2Proof/Safety.lean ====
section
/-! DEFINITION. The terms the statements are made in: the tables of the spec as data, the response words, the
invariants of 10_state R42, the table seen as a map from keys to values, what a host can observe (R40),
and the order of checks (60_exceptions R199). -/

namespace Sys2Proof.Machine

/-! ## Tables of the spec -/

/-- The rows of 30_encoding R73: opcode, mnemonic, match, mask. -/
def opcodeRows : List (Byte × String × CmdWord × CmdWord) := [
  (0x00#8, "NOP", 0x000000000000000000#72, 0xFFFFFFFFFFFFFFFFFF#72),
  (0x01#8, "CONSTRUCT", 0x010000000000000000#72, 0xFFFFFFFFFFFFFFFFFF#72),
  (0x02#8, "RDREG", 0x020000000000000000#72, 0xFFFFFFFFFFFFFFFF00#72),
  (0x10#8, "HINIT", 0x100000000000000000#72, 0xFFFFFFFFFFFFFFFFFF#72),
  (0x11#8, "HABSORB", 0x110000000000000000#72, 0xFFFFFFFFFFFFFFFF00#72),
  (0x12#8, "HKEY", 0x120000000000000000#72, 0xFFFFFFFFFFFFFFFFFF#72),
  (0x20#8, "KCLR", 0x200000000000000000#72, 0xFFFFFFFFFFFFFFFFFF#72),
  (0x21#8, "KPUSH", 0x210000000000000000#72, 0xFFFFFFFFFFFFFFFF00#72),
  (0x22#8, "KREAD", 0x220000000000000000#72, 0xFFFFFFFFFFFFFF0000#72),
  (0x30#8, "INSERT", 0x300000000000000000#72, 0xFF0000000000000000#72),
  (0x31#8, "GET", 0x310000000000000000#72, 0xFFFFFFFFFFFFFFFFFF#72),
  (0x32#8, "REMOVE", 0x320000000000000000#72, 0xFFFFFFFFFFFFFFFFFF#72),
  (0x40#8, "ITSTART", 0x400000000000000000#72, 0xFFFFFFFFFFFFFFFFFF#72),
  (0x41#8, "ITNEXT", 0x410000000000000000#72, 0xFFFFFFFFFFFFFFFFFF#72)]

/-- The opcode is one of the fourteen of 60_exceptions R192. -/
def assignedOp (op : Byte) : Bool := (opcodeRows.map (·.1)).contains op

/-- A bit as a number. -/
def bit (b : Bool) : Nat := if b then 1 else 0

/-- What RDREG reads at a number, as a number, row by row of 10_state R37, with the layouts of R35, R36 and
R38; 0 for a number without a row. -/
def regNumber (s : State) : Nat → Nat
  | 0x00 => bit s.tvalid + 2 * bit s.itact + 4 * bit s.fault + 8 * bit s.bank
  | 0x01 => s.fcause.toNat + 2 ^ 8 * s.fop.toNat
  | 0x02 => s.h.toNat
  | 0x03 => s.klen.toNat
  | 0x04 => s.size.toNat
  | 0x05 => s.cap.toNat
  | 0x06 => s.icur.toNat
  | 0x07 => 0x0000000400000003
  | 0x08 => s.cfg.keyMax.toNat + 2 ^ 16 * s.cfg.idxBits.num + 2 ^ 24 * bit s.cfg.mulHH
  | 0x09 => s.cfg.capMax.toNat
  | 0x0A => s.cfg.basis.toNat
  | 0x0B => s.cfg.prime.toNat
  | _ => 0

/-! ## Responses -/

/-- The response words of 30_encoding R74 and R75, written out: kind in bits 65:64, data in bits 63:0. -/
def doneWord : RspWord := 0#66
def dataWord (v : Word) : RspWord := BitVec.ofNat 66 (1 * 2 ^ 64 + v.toNat)
def noneWord : RspWord := BitVec.ofNat 66 (2 * 2 ^ 64)
def faultWord (fop fcause : Byte) : RspWord :=
  BitVec.ofNat 66 (3 * 2 ^ 64 + fop.toNat * 2 ^ 8 + fcause.toNat)

/-- `s` after one response word. -/
def State.told (s : State) (r : RspWord) : State := { s with rsps := s.rsps ++ [r] }

/-- `s` after a command that the fault state refuses (60_exceptions R202). -/
def State.refused (s : State) : State := s.told (faultWord s.fop s.fcause)

/-- `s` after a command with opcode `op` has raised the cause with code `code` (60_exceptions R200). -/
def State.raised (s : State) (op code : Byte) : State :=
  { s with fault := true, fcause := code, fop := op, rsps := s.rsps ++ [faultWord op code] }

/-- A command of format Z with opcode `op` spells `i`, and no other `arg` does (30_encoding R71, R77). -/
def SpellsZ (op : Byte) (i : Instr) : Prop :=
  decode (CmdWord.mk op 0#64) = .ok i ∧
    ∀ arg, arg ≠ 0#64 → decode (CmdWord.mk op arg) = .error .reservedBits

/-- A command of format B or R with opcode `op`: the operand is `arg[7:0]`, `arg[63:8]` must be zero. -/
def SpellsByte (op : Byte) (f : Byte → Instr) : Prop :=
  (∀ b : Byte, decode (CmdWord.mk op (BitVec.ofNat 64 b.toNat)) = .ok (f b)) ∧
    ∀ arg : Word, 2 ^ 8 ≤ arg.toNat → decode (CmdWord.mk op arg) = .error .reservedBits

/-- In the fault state `i` is refused (60_exceptions R202). -/
def RefusedInFaultState (i : Instr) : Prop :=
  ∀ s : State, s.fault = true → exec i s = .next s.refused

/-! ## The table -/

/-- The number of occupied slots of the table (10_state R31, R42 (d)). -/
def State.occupied (s : State) : Nat :=
  (List.range s.cap.toNat).countP fun i => (s.slotRead i).occ

/-- What the table answers to a key (42_table R131, R132, R152): one probe, at the home slot. -/
def State.lookup (s : State) (k : Key) : Option Word :=
  let r := s.slotRead (home s.cfg (fnvHash s.cfg k) s.cap.toNat)
  if r.occ = true ∧ r.key = k then some r.val else none

/-- The response word to a lookup (30_encoding R74). -/
def lookupWord : Option Word → RspWord
  | some v => dataWord v
  | none => noneWord

/-- The record the rehash leaves at index `j` of a sequence of `nc` slots (42_table R146, R147): of the old
records whose home is `j`, the one at the highest old index; `EMPTY` when there is none. -/
def survivor (cfg : Config) (old : Nat → Slot) (c nc j : Nat) : Slot :=
  match (List.range c).reverse.find? fun i =>
      (old i).occ && decide (home cfg (fnvHash cfg (old i).key) nc = j) with
  | some i => old i
  | none => Slot.empty

/-- The capacities a table can have (42_table R135): the terms from 127 under `newcap`. -/
def growth : Nat → Nat
  | 0 => 127
  | n + 1 => newcap (growth n)

/-- Every occupied slot is the home slot of its key (42_table R148). -/
def State.placed (s : State) : Prop :=
  ∀ i, i < s.cap.toNat → (s.slotRead i).occ = true →
    home s.cfg (fnvHash s.cfg (s.slotRead i).key) s.cap.toNat = i

/-- All indices a memory lists are below `n`. -/
def Memory.below {α : Type} (n : Nat) (m : Memory α) : Prop := ∀ e ∈ m, e.1 < n

/-- The invariants: (a) to (h) of 10_state R42, R30 and R32 (`CAP` without a table, `ICUR`), the placement
of 42_table R148, and the canonical form and address range of the three memories. -/
structure State.Inv (s : State) : Prop where
  cfg_wf : s.cfg.wf = true
  itact_tvalid : s.itact = true → s.tvalid = true
  cap_growth : s.tvalid = true → ∃ n, s.cap.toNat = growth n
  cap_bounds : s.tvalid = true → 127 ≤ s.cap.toNat ∧ s.cap.toNat ≤ s.cfg.capMax.toNat
  cap_zero : s.tvalid = false → s.cap = 0#32
  load : s.tvalid = true → 4 * s.size.toNat ≤ 3 * s.cap.toNat
  size_ge : s.tvalid = true → s.occupied ≤ s.size.toNat
  empty_slots : ∀ i, i < s.cap.toNat → (s.slotRead i).occ = false → s.slotRead i = Slot.empty
  klen_le : s.klen.toNat ≤ s.cfg.keyMax.toNat
  key_len : ∀ i, i < s.cap.toNat → (s.slotRead i).key.length ≤ s.cfg.keyMax.toNat
  no_fault : s.fault = false → s.fcause = 0#8 ∧ s.fop = 0#8
  fault_cause : s.fault = true → 1 ≤ s.fcause.toNat ∧ s.fcause.toNat ≤ 7
  h_range : s.cfg.basis ≠ BitVec.allOnes 64 → s.h ≠ BitVec.allOnes 64
  icur_le : s.itact = true → s.icur.toNat ≤ s.cap.toNat
  placed : s.placed
  keybuf_wf : Memory.wf keyByteUnlisted s.keybuf = true ∧ Memory.below s.cfg.keyMax.toNat s.keybuf
  slots_wf : ∀ b, Memory.wf Slot.unlisted (s.bankMem b) = true ∧
    Memory.below s.cfg.capMax.toNat (s.bankMem b)

/-- What a run that raises no fault is (60_exceptions R208): the block is not in the fault state. -/
def State.safe (s : State) : Prop := s.Inv ∧ s.fault = false

/-- A command of the order R208 (c) and (d) and 70_reset R222 ask for, given whether a table has been
constructed and whether an ITSTART has come after the last command that may change the table; with
(b): RDREG names an assigned register. Then the two answers for the commands after it. -/
def askedOrder (made iter : Bool) : Instr → Bool × Bool × Bool
  | .construct => (true, true, false)
  | .insert _ => (made, made, false)
  | .get => (made, made, iter)
  | .remove => (made, made, false)
  | .itstart => (made, made, true)
  | .itnext => (made && iter, made, iter)
  | .rdreg r => (decide (r.toNat ≤ 0x0B), made, iter)
  | .nop => (true, made, iter)
  | .hinit => (true, made, iter)
  | .habsorb _ => (true, made, iter)
  | .hkey => (true, made, iter)
  | .kclr => (true, made, iter)
  | .kpush _ => (true, made, iter)
  | .kread _ => (true, made, iter)

/-- Every command of the list comes in the order R208 asks for. -/
def inOrder (made iter : Bool) : List Instr → Bool
  | [] => true
  | i :: is =>
    let a := askedOrder made iter i
    a.1 && inOrder a.2.1 a.2.2 is

/-! ## The order of checks -/

/-- The checks of 60_exceptions R199 (2) to (4) in order, each with the code of its cause (R191). -/
def checks (s : State) (w : CmdWord) : List (Bool × Byte) :=
  let op := w.toNat / 2 ^ 64
  let arg := w.toNat % 2 ^ 64
  [ (!(CmdWord.opAssigned w), 1#8),
    (!(CmdWord.reservedZero w), 2#8),
    (op == 0x02 && decide (0x0B < arg), 3#8),
    (op == 0x21 && s.klen == s.cfg.keyMax, 4#8),
    ([0x30, 0x31, 0x32, 0x40, 0x41].contains op && !s.tvalid, 5#8),
    (op == 0x41 && !s.itact, 6#8),
    (op == 0x30 && !(s.slotRead (home s.cfg (fnvHash s.cfg s.key) s.cap.toNat)).occ
      && decide (3 * s.cap.toNat < 4 * (s.size.toNat + 1))
      && decide (s.cfg.capMax.toNat < newcap s.cap.toNat), 7#8) ]

/-- The code of the first check that fails, none when the command executes. -/
def firstFailing (s : State) (w : CmdWord) : Option Byte :=
  (checks s w).findSome? fun c => if c.1 then some c.2 else none

/-! ## What a host can observe -/

/-- Two states that differ at most in state no command can observe (10_state R27, R29, R40): key-buffer
bytes from `KLEN` up, the bank that is not current, slots from `CAP` up. -/
structure SameToHost (s t : State) : Prop where
  cfg : s.cfg = t.cfg
  h : s.h = t.h
  klen : s.klen = t.klen
  key : s.key = t.key
  bank : s.bank = t.bank
  cap : s.cap = t.cap
  slots : ∀ i, i < s.cap.toNat → s.slotRead i = t.slotRead i
  size : s.size = t.size
  icur : s.icur = t.icur
  tvalid : s.tvalid = t.tvalid
  itact : s.itact = t.itact
  fault : s.fault = t.fault
  fcause : s.fcause = t.fcause
  fop : s.fop = t.fop
  inputs : s.inputs = t.inputs
  rsps : s.rsps = t.rsps

end Sys2Proof.Machine
end

