-- ==== Sys2Proof/Certificates/Slice0/Obligations.lean ====
section
/-! DEFINITION. The statements about HTCORE, in the order of spec/: encoding, stepping, faults and reset, the
fourteen commands, the frames, the hash, the table, the iterator, the invariant. Each holds for every
legal value of the parameters (00_scope R19), which State carries in `cfg`. -/

open Sys2Proof Sys2Proof.Machine

/-! ## Encoding (30_encoding) -/

/-- Words written out from R70 to R73, one for each command (the encodings of 95_test_vectors). -/
def Obligations.SpecWordsDecode : Prop :=
  decode 0x000000000000000000#72 = .ok .nop ∧
  decode 0x010000000000000000#72 = .ok .construct ∧
  decode 0x02000000000000000B#72 = .ok (.rdreg 0x0B#8) ∧
  decode 0x100000000000000000#72 = .ok .hinit ∧
  decode 0x110000000000000061#72 = .ok (.habsorb 0x61#8) ∧
  decode 0x120000000000000000#72 = .ok .hkey ∧
  decode 0x200000000000000000#72 = .ok .kclr ∧
  decode 0x210000000000000062#72 = .ok (.kpush 0x62#8) ∧
  decode 0x22000000000000FFFF#72 = .ok (.kread 0xFFFF#16) ∧
  decode 0x30FFFFFFFFFFFFFFFE#72 = .ok (.insert 0xFFFFFFFFFFFFFFFE#64) ∧
  decode 0x310000000000000000#72 = .ok .get ∧
  decode 0x320000000000000000#72 = .ok .remove ∧
  decode 0x400000000000000000#72 = .ok .itstart ∧
  decode 0x410000000000000000#72 = .ok .itnext

/-- Decoding the encoding of a command gives the command, at every value of its operand (R70 to R73). -/
def Obligations.EveryCommandRoundTrips : Prop :=
  ∀ i : Instr, decode (encode i) = .ok i

/-- A command is spelled by one word only: with R77 every bit of a word that decodes has its meaning. -/
def Obligations.EveryDecodedWordIsItsEncoding : Prop :=
  ∀ (w : CmdWord) (i : Instr), decode w = .ok i → encode i = w

/-- R73, whole: a word is the command of a row exactly when it matches under the row's mask; an unassigned
opcode is illegal; an assigned one that matches no row has a reserved bit set; the operand is the one
of R72. -/
def Obligations.DecodeFollowsMatchAndMask : Prop :=
  (∀ (w : CmdWord), ∀ row ∈ opcodeRows,
    (w &&& row.2.2.2 = row.2.2.1 ↔ ∃ i, decode w = .ok i ∧ i.mnemonic = row.2.1)) ∧
  (∀ w : CmdWord, assignedOp (CmdWord.op w) = false → decode w = .error .illegalOpcode) ∧
  (∀ w : CmdWord, assignedOp (CmdWord.op w) = true →
    (∀ row ∈ opcodeRows, w &&& row.2.2.2 ≠ row.2.2.1) → decode w = .error .reservedBits) ∧
  (∀ (w : CmdWord) (i : Instr), decode w = .ok i →
    i.opcode = CmdWord.op w ∧ i.argField = CmdWord.arg w)

/-! ## Stepping (00_scope R17, 60_exceptions R190, R199) -/

/-- A step with a command word that decodes runs that command, with the word taken from the inputs;
a word placed by `withFetchWord` is the one that runs. -/
def Obligations.StepExecutesTheDecodedCommand : Prop :=
  (∀ (s : State) (w : CmdWord) (rest : List HostInput) (i : Instr),
    s.inputs = .cmd w :: rest → decode w = .ok i → step s = exec i { s with inputs := rest }) ∧
  (∀ (s : State) (nbits w : Nat) (i : Instr), decodeTableWord nbits w = some i →
    step (s.withFetchWord nbits w) = exec i s)

/-- R76, R192: an unassigned opcode raises IllegalOpcode, whatever `arg`; R77, R193: an assigned one with a 1
in a must-be-zero bit raises ReservedBits. Nothing but the fault record changes. -/
def Obligations.RejectedWordRaisesItsCause : Prop :=
  ∀ (s : State) (w : CmdWord) (rest : List HostInput), s.inputs = .cmd w :: rest → s.fault = false →
    (assignedOp (CmdWord.op w) = false →
      step s = .next (State.raised { s with inputs := rest } (CmdWord.op w) 1#8)) ∧
    (assignedOp (CmdWord.op w) = true → CmdWord.reservedZero w = false →
      step s = .next (State.raised { s with inputs := rest } (CmdWord.op w) 2#8))

/-- R74, whole: one response for each command word, 66 bits, its kind in bits 65:64 and its data in bits
63:0; DONE and NONE carry 0. -/
def Obligations.EveryCommandGetsOneResponse : Prop :=
  (∀ (s : State) (w : CmdWord) (rest : List HostInput), s.inputs = .cmd w :: rest →
    ∃ (t : State) (r : Response), step s = .next t ∧ t.inputs = rest ∧
      t.rsps = s.rsps ++ [r.word] ∧ ((∃ v, r = .fault v) ↔ t.fault = true ∧ ∀ v, r ≠ .data v)) ∧
  (∀ r : Response, r.word.extractLsb' 64 2 =
      match r with | .done => 0#2 | .data _ => 1#2 | .absent => 2#2 | .fault _ => 3#2) ∧
  (∀ r : Response, r.word.extractLsb' 0 64 =
      match r with | .done => 0#64 | .data v => v | .absent => 0#64 | .fault v => v)

/-- Every step answers a next state: of command words that is R190, that nothing stops the machine is the
model's reading of it (entry 9), and the steps without input and on `rst` are the model's own (entries
7 and 8). With a command word (R190) it appends one response word, which is FAULT exactly when the
command is refused or raises, and then nothing but the fault record has changed. -/
def Obligations.EveryStepAnswers : Prop :=
  (∀ s : State, ∃ t, step s = .next t) ∧
  (∀ (s : State) (w : CmdWord) (rest : List HostInput), s.inputs = .cmd w :: rest →
    ∃ t : State, step s = .next t ∧
      ((∃ r, t.rsps = s.rsps ++ [r] ∧ (r = doneWord ∨ r = noneWord ∨ ∃ v, r = dataWord v) ∧
          t.fault = s.fault ∧ t.fcause = s.fcause ∧ t.fop = s.fop) ∨
        (∃ op code, t = State.raised { s with inputs := rest } op code)))

/-- R199, whole: in the fault state R202 and R203; otherwise the first failing check of the list decides the
cause, and when none fails the command executes and raises nothing. -/
def Obligations.ChecksGoInOrder : Prop :=
  ∀ (s : State) (w : CmdWord) (rest : List HostInput), s.inputs = .cmd w :: rest →
    (s.fault = true →
      if w.toNat / 2 ^ 64 = 0x02 ∧ w.toNat % 2 ^ 64 ≤ 0x0B then
        step s = .next (State.told { s with inputs := rest }
          (dataWord (BitVec.ofNat 64 (regNumber s (w.toNat % 2 ^ 64)))))
      else step s = .next (State.refused { s with inputs := rest })) ∧
    (s.fault = false →
      match firstFailing s w with
      | some code => step s = .next (State.raised { s with inputs := rest } (CmdWord.op w) code)
      | none => ∃ (i : Instr) (t : State), decode w = .ok i ∧ step s = .next t ∧
          exec i { s with inputs := rest } = .next t ∧ t.fault = false)

/-! ## The fault state and reset (60_exceptions R200 to R204, 70_reset R220) -/

/-- R202: in the fault state every word but a well-formed RDREG of an assigned register is answered FAULT
with the stored record, and no state changes. -/
def Obligations.FaultStateRefusesCommands : Prop :=
  ∀ (s : State) (w : CmdWord) (rest : List HostInput), s.inputs = .cmd w :: rest → s.fault = true →
    ¬ (CmdWord.op w = 0x02#8 ∧ (CmdWord.arg w).extractLsb' 8 56 = 0#56 ∧
        ((CmdWord.arg w).extractLsb' 0 8).toNat ≤ 0x0B) →
    step s = .next (State.told { s with inputs := rest } (faultWord s.fop s.fcause))

/-- R203: in the fault state a well-formed RDREG of an assigned register executes and answers DATA. -/
def Obligations.FaultStateStillReadsRegisters : Prop :=
  ∀ (s : State) (w : CmdWord) (rest : List HostInput), s.inputs = .cmd w :: rest → s.fault = true →
    CmdWord.op w = 0x02#8 → (CmdWord.arg w).extractLsb' 8 56 = 0#56 →
    ((CmdWord.arg w).extractLsb' 0 8).toNat ≤ 0x0B →
    step s = .next (State.told { s with inputs := rest }
      (dataWord (BitVec.ofNat 64 (regNumber s ((CmdWord.arg w).extractLsb' 0 8).toNat))))

/-- R204: no command clears `FAULT`, `FCAUSE` or `FOP` once a fault is recorded; an assertion of `rst` clears
all three and discards the table. -/
def Obligations.OnlyResetLeavesTheFaultState : Prop :=
  ∀ s t : State, s.fault = true → step s = .next t →
    ((∀ rest, s.inputs ≠ .rst :: rest) ∧ (∀ w rest, s.inputs ≠ .cmdThenRst w :: rest) →
      t.fault = true ∧ t.fcause = s.fcause ∧ t.fop = s.fop) ∧
    ((∃ rest, s.inputs = .rst :: rest) ∨ (∃ w rest, s.inputs = .cmdThenRst w :: rest) →
      t.fault = false ∧ t.fcause = 0#8 ∧ t.fop = 0#8 ∧ t.tvalid = false)

/-- R200, R201: a command that raises a cause changes `FAULT`, `FCAUSE` and `FOP` and nothing else, whatever
the command; its response carries the new record. -/
def Obligations.FaultChangesOnlyItsRecord : Prop :=
  ∀ (s t : State) (w : CmdWord) (rest : List HostInput), s.inputs = .cmd w :: rest →
    s.fault = false → step s = .next t → t.fault = true →
    ∃ cause : Cause, t = { s with
      inputs := rest, fault := true, fcause := cause.code, fop := CmdWord.op w,
      rsps := s.rsps ++ [faultWord (CmdWord.op w) cause.code] }

/-- R41: what reset leaves, for every value of the parameters, and what all twelve registers then read; of the
content R41 leaves unspecified nothing is said but that the key is empty and no table exists. -/
def Obligations.ResetStateHoldsTheStatedValues : Prop :=
  ∀ c : Config,
    let s := State.resetWith c
    s.h = c.basis ∧ s.klen = 0#16 ∧ s.key = [] ∧ s.bank = false ∧ s.cap = 0#32 ∧ s.size = 0#32 ∧
    s.icur = 0#32 ∧ s.tvalid = false ∧ s.itact = false ∧ s.fault = false ∧ s.fcause = 0#8 ∧
    s.fop = 0#8 ∧ regNumber s 0x00 = 0 ∧ regNumber s 0x01 = 0 ∧ regNumber s 0x02 = c.basis.toNat ∧
    regNumber s 0x03 = 0 ∧ regNumber s 0x04 = 0 ∧ regNumber s 0x05 = 0 ∧ regNumber s 0x06 = 0 ∧
    regNumber s 0x07 = 4 * 2 ^ 32 + 3 ∧
    regNumber s 0x08 = c.keyMax.toNat + 2 ^ 16 * c.idxBits.num + 2 ^ 24 * (if c.mulHH then 1 else 0) ∧
    regNumber s 0x09 = c.capMax.toNat ∧ regNumber s 0x0A = c.basis.toNat ∧
    regNumber s 0x0B = c.prime.toNat

/-- R220, R83: `rst`, between commands or with one in flight, gives every register its reset value from every
state and gives no response; the parameters stay. -/
def Obligations.RstResetsFromEveryState : Prop :=
  ∀ (s : State) (rest : List HostInput),
    s.inputs = .rst :: rest ∨ (∃ w, s.inputs = .cmdThenRst w :: rest) →
    ∃ t : State, step s = .next t ∧ t.inputs = rest ∧ t.rsps = s.rsps ∧ t.cfg = s.cfg ∧
      t.h = s.cfg.basis ∧ t.klen = 0#16 ∧ t.key = [] ∧ t.bank = false ∧ t.cap = 0#32 ∧
      t.size = 0#32 ∧ t.icur = 0#32 ∧ t.tvalid = false ∧ t.itact = false ∧ t.fault = false ∧
      t.fcause = 0#8 ∧ t.fop = 0#8

/-- R215: between commands the block is idle with all state retained (a step without input is the model's
own convention, entry 7). -/
def Obligations.IdleBlockKeepsItsState : Prop :=
  ∀ s : State, s.inputs = [] → step s = .next s

/-! ## The commands -/

/-- NOP (44_system R180). -/
def Obligations.NopOnlyResponds : Prop :=
  SpellsZ 0x00#8 .nop ∧ RefusedInFaultState .nop ∧
  ∀ s : State, s.fault = false → exec .nop s = .next (s.told doneWord)

/-- RDREG (44_system R181) of each of the twelve registers with its layout (10_state R35 to R38), in every
state, and of an unassigned number (60_exceptions R194). -/
def Obligations.RdregReadsItsRegister : Prop :=
  SpellsByte 0x02#8 .rdreg ∧
  ∀ (s : State) (r : Byte),
    (r.toNat ≤ 0x0B →
      exec (.rdreg r) s = .next (s.told (dataWord (BitVec.ofNat 64 (regNumber s r.toNat)))) ∧
        regNumber s r.toNat < 2 ^ 64) ∧
    (0x0B < r.toNat → s.fault = false → exec (.rdreg r) s = .next (s.raised 0x02#8 3#8)) ∧
    (0x0B < r.toNat → s.fault = true → exec (.rdreg r) s = .next s.refused)

/-- HINIT (40_hash R108). -/
def Obligations.HinitLoadsTheBasis : Prop :=
  SpellsZ 0x10#8 .hinit ∧ RefusedInFaultState .hinit ∧
  ∀ s : State, s.fault = false →
    exec .hinit s = .next (State.told { s with h := s.cfg.basis } doneWord)

/-- HABSORB (40_hash R109). -/
def Obligations.HabsorbRunsOneRound : Prop :=
  SpellsByte 0x11#8 .habsorb ∧ (∀ b, RefusedInFaultState (.habsorb b)) ∧
  ∀ (s : State) (b : Byte), s.fault = false →
    exec (.habsorb b) s = .next (State.told { s with h := fnvStep s.cfg s.h b } doneWord)

/-- HKEY (40_hash R110); no table is needed. -/
def Obligations.HkeyReturnsTheDigest : Prop :=
  SpellsZ 0x12#8 .hkey ∧ RefusedInFaultState .hkey ∧
  ∀ s : State, s.fault = false →
    exec .hkey s = .next (State.told { s with h := fnvHash s.cfg s.key }
      (dataWord (fnvHash s.cfg s.key)))

/-- KCLR (41_keybuf R120). -/
def Obligations.KclrEmptiesTheKey : Prop :=
  SpellsZ 0x20#8 .kclr ∧ RefusedInFaultState .kclr ∧
  ∀ s : State, s.fault = false →
    exec .kclr s = .next (State.told { s with klen := 0#16 } doneWord) ∧
    State.key { s with klen := 0#16 } = []

/-- KPUSH (41_keybuf R121, 60_exceptions R195). `KLEN <= KEY_MAX` is R26, an invariant. -/
def Obligations.KpushAppendsOneByte : Prop :=
  SpellsByte 0x21#8 .kpush ∧ (∀ b, RefusedInFaultState (.kpush b)) ∧
  (∀ (s : State) (b : Byte), s.fault = false → s.klen = s.cfg.keyMax →
    exec (.kpush b) s = .next (s.raised 0x21#8 4#8)) ∧
  (∀ (s : State) (b : Byte), s.fault = false → s.klen.toNat < s.cfg.keyMax.toNat →
    ∃ m : Memory Byte,
      exec (.kpush b) s =
        .next (State.told { s with keybuf := m, klen := BitVec.ofNat 16 (s.klen.toNat + 1) } doneWord) ∧
      (∀ i, Memory.read keyByteUnlisted m i = if i = s.klen.toNat then b else s.keyByte i) ∧
      State.key { s with keybuf := m, klen := BitVec.ofNat 16 (s.klen.toNat + 1) } = s.key ++ [b])

/-- KREAD (41_keybuf R122). -/
def Obligations.KreadReturnsOneByte : Prop :=
  (∀ idx : BitVec 16, decode (CmdWord.mk 0x22#8 (BitVec.ofNat 64 idx.toNat)) = .ok (.kread idx)) ∧
  (∀ arg : Word, 2 ^ 16 ≤ arg.toNat → decode (CmdWord.mk 0x22#8 arg) = .error .reservedBits) ∧
  (∀ idx, RefusedInFaultState (.kread idx)) ∧
  ∀ (s : State) (idx : BitVec 16), s.fault = false →
    s.key.length = s.klen.toNat ∧
    exec (.kread idx) s = .next (s.told
      (match s.key[idx.toNat]? with
        | some b => dataWord (BitVec.ofNat 64 b.toNat)
        | none => noneWord))

/-- CONSTRUCT (42_table R136): every slot of the new table is `EMPTY`; slots that are not part of it, and the
other bank, are not written. -/
def Obligations.ConstructMakesAnEmptyTable : Prop :=
  SpellsZ 0x01#8 .construct ∧ RefusedInFaultState .construct ∧
  ∀ s : State, s.fault = false →
    ∃ m : Memory Slot,
      exec .construct s = .next (State.told { s with
        bank := false, slot0 := m, cap := 127#32, size := 0#32, icur := 0#32,
        tvalid := true, itact := false } doneWord) ∧
      ∀ i, Memory.read Slot.unlisted m i =
        if i < 127 then { occ := false, key := [], val := 0#64 } else s.bankSlot false i

/-- INSERT on an occupied home slot (42_table R140, R141): key and value are replaced, `SIZE` is not changed,
nothing grows, DONE; every other slot of both banks is as before. -/
def Obligations.InsertReplacesAnOccupiedSlot : Prop :=
  ∀ (s : State) (val : Word), s.fault = false → s.tvalid = true →
    (s.slotRead s.homeIndex).occ = true →
    ∃ t : State, exec (.insert val) s = .next t ∧
      t = State.told { s with
        slot0 := t.slot0, slot1 := t.slot1, h := fnvHash s.cfg s.key, itact := false } doneWord ∧
      ∀ b i, t.bankSlot b i =
        if b = s.bank ∧ i = s.homeIndex then { occ := true, key := s.key, val := val }
        else s.bankSlot b i

/-- INSERT on an empty home slot of a table that is then not over 3/4 (42_table R140). -/
def Obligations.InsertFillsAnEmptySlot : Prop :=
  ∀ (s : State) (val : Word), s.fault = false → s.tvalid = true →
    (s.slotRead s.homeIndex).occ = false → 4 * (s.size.toNat + 1) ≤ 3 * s.cap.toNat →
    ∃ t : State, exec (.insert val) s = .next t ∧
      t = State.told { s with
        slot0 := t.slot0, slot1 := t.slot1, h := fnvHash s.cfg s.key, itact := false,
        size := BitVec.ofNat 32 (s.size.toNat + 1) } doneWord ∧
      ∀ b i, t.bankSlot b i =
        if b = s.bank ∧ i = s.homeIndex then { occ := true, key := s.key, val := val }
        else s.bankSlot b i

/-- INSERT that resizes (42_table R140, R146, R147): the new pair is stored and counted in the old sequence,
which the other bank's new sequence replaces; of the old records with one new home, the one at the
highest old index survives. -/
def Obligations.InsertResizesOverThreeQuarters : Prop :=
  ∀ (s : State) (val : Word), s.fault = false → s.tvalid = true →
    (s.slotRead s.homeIndex).occ = false → 3 * s.cap.toNat < 4 * (s.size.toNat + 1) →
    newcap s.cap.toNat ≤ s.cfg.capMax.toNat →
    ∃ t : State, exec (.insert val) s = .next t ∧
      t = State.told { s with
        slot0 := t.slot0, slot1 := t.slot1, h := fnvHash s.cfg s.key, itact := false,
        size := BitVec.ofNat 32 (s.size.toNat + 1),
        bank := !s.bank, cap := BitVec.ofNat 32 (newcap s.cap.toNat) } doneWord ∧
      t.cap.toNat = newcap s.cap.toNat ∧
      (∀ i, t.bankSlot s.bank i =
        if i = s.homeIndex then { occ := true, key := s.key, val := val } else s.slotRead i) ∧
      (∀ j, t.slotRead j =
        if j < newcap s.cap.toNat then
          survivor s.cfg (t.bankSlot s.bank) s.cap.toNat (newcap s.cap.toNat) j
        else s.bankSlot (!s.bank) j)

/-- INSERT's word (format V, R71, R140), the fault state, and the capacity check (42_table R143, 60_exceptions
R198): CapacityExhausted exactly when the three conditions hold, before any write. -/
def Obligations.InsertRefusesToOutgrowMemory : Prop :=
  (∀ v : Word, decode (CmdWord.mk 0x30#8 v) = .ok (.insert v)) ∧
  (∀ v, RefusedInFaultState (.insert v)) ∧
  ∀ (s : State) (val : Word), s.fault = false → s.tvalid = true →
    let exhausts := (s.slotRead s.homeIndex).occ = false ∧
      3 * s.cap.toNat < 4 * (s.size.toNat + 1) ∧ s.cfg.capMax.toNat < newcap s.cap.toNat
    (exhausts → exec (.insert val) s = .next (s.raised 0x30#8 7#8)) ∧
    (¬ exhausts → ∃ t : State, exec (.insert val) s = .next t ∧ t.fault = false ∧
      t.rsps = s.rsps ++ [doneWord])

/-- GET (42_table R152): the value of the home slot when the slot is occupied and its key is `KEY`; only `H`
changes. -/
def Obligations.GetAnswersTheMatchingValue : Prop :=
  SpellsZ 0x31#8 .get ∧ RefusedInFaultState .get ∧
  (∀ s : State, s.fault = false → s.tvalid = false → exec .get s = .next (s.raised 0x31#8 5#8)) ∧
  ∀ s : State, s.fault = false → s.tvalid = true →
    exec .get s = .next (State.told { s with h := fnvHash s.cfg s.key }
      (lookupWord (s.lookup s.key)))

/-- REMOVE (42_table R155, R156): the same check; when it matches, the slot becomes `EMPTY`, `SIZE` goes down by
one and the iteration ends; otherwise only `H` changes. -/
def Obligations.RemoveEmptiesTheMatchingSlot : Prop :=
  SpellsZ 0x32#8 .remove ∧ RefusedInFaultState .remove ∧
  (∀ s : State, s.fault = false → s.tvalid = false → exec .remove s = .next (s.raised 0x32#8 5#8)) ∧
  (∀ s : State, s.fault = false → s.tvalid = true → s.lookup s.key = none →
    exec .remove s = .next (State.told { s with h := fnvHash s.cfg s.key } noneWord)) ∧
  (∀ (s : State) (v : Word), s.fault = false → s.tvalid = true → s.lookup s.key = some v →
    ∃ t : State, exec .remove s = .next t ∧
      t = State.told { s with
        slot0 := t.slot0, slot1 := t.slot1, h := fnvHash s.cfg s.key,
        size := s.size - 1#32, itact := false } (dataWord v) ∧
      ∀ b i, t.bankSlot b i =
        if b = s.bank ∧ i = s.homeIndex then { occ := false, key := [], val := 0#64 }
        else s.bankSlot b i)

/-- ITSTART (43_iterate R171). -/
def Obligations.ItstartRestartsTheIteration : Prop :=
  SpellsZ 0x40#8 .itstart ∧ RefusedInFaultState .itstart ∧
  (∀ s : State, s.fault = false → s.tvalid = false → exec .itstart s = .next (s.raised 0x40#8 5#8)) ∧
  ∀ s : State, s.fault = false → s.tvalid = true →
    exec .itstart s = .next (State.told { s with icur := 0#32, itact := true } doneWord)

/-- ITNEXT (43_iterate R172): the first occupied slot from `ICUR` up is yielded, its key in the key buffer; with
none below `CAP` the answer is NONE and the key buffer is kept. Stored keys are at most `KEY_MAX` long
(10_state R42 (f), an invariant), so their length fits `KLEN`. -/
def Obligations.ItnextYieldsTheNextOccupiedSlot : Prop :=
  SpellsZ 0x41#8 .itnext ∧ RefusedInFaultState .itnext ∧
  (∀ (s : State) (i : Nat), s.fault = false → s.tvalid = true → s.itact = true →
    s.icur.toNat ≤ i → i < s.cap.toNat → (s.slotRead i).occ = true →
    (∀ j, s.icur.toNat ≤ j → j < i → (s.slotRead j).occ = false) →
    (s.slotRead i).key.length ≤ s.cfg.keyMax.toNat →
    ∃ t : State, exec .itnext s = .next t ∧
      t = State.told { s with
        keybuf := t.keybuf, klen := BitVec.ofNat 16 (s.slotRead i).key.length,
        icur := BitVec.ofNat 32 (i + 1) } (dataWord (s.slotRead i).val) ∧
      t.key = (s.slotRead i).key ∧ t.icur.toNat = i + 1 ∧
      (∀ a, (s.slotRead i).key.length ≤ a → t.keyByte a = s.keyByte a)) ∧
  (∀ s : State, s.fault = false → s.tvalid = true → s.itact = true →
    (∀ j, s.icur.toNat ≤ j → j < s.cap.toNat → (s.slotRead j).occ = false) →
    exec .itnext s = .next (State.told { s with icur := s.cap } noneWord))

/-- NoTable (60_exceptions R196): the five table commands before CONSTRUCT, for every operand. -/
def Obligations.TableCommandsNeedATable : Prop :=
  ∀ s : State, s.fault = false → s.tvalid = false →
    (∀ v, exec (.insert v) s = .next (s.raised 0x30#8 5#8)) ∧
    exec .get s = .next (s.raised 0x31#8 5#8) ∧
    exec .remove s = .next (s.raised 0x32#8 5#8) ∧
    exec .itstart s = .next (s.raised 0x40#8 5#8) ∧
    exec .itnext s = .next (s.raised 0x41#8 5#8)

/-- IterInactive (60_exceptions R197). -/
def Obligations.ItnextNeedsAnIteration : Prop :=
  ∀ s : State, s.fault = false → s.tvalid = true → s.itact = false →
    exec .itnext s = .next (s.raised 0x41#8 6#8)

/-! ## Frames -/

/-- 10_state R20, the column "written by": each register changes only by the commands listed against it, for
all fourteen commands; and no command writes the parameters or the host's inputs. -/
def Obligations.EachRegisterIsWrittenOnlyByItsCommands : Prop :=
  ∀ (i : Instr) (s t : State), exec i s = .next t →
    t.cfg = s.cfg ∧ t.inputs = s.inputs ∧
    (i.opcode ∉ [0x10#8, 0x11#8, 0x12#8, 0x30#8, 0x31#8, 0x32#8] → t.h = s.h) ∧
    (i.opcode ∉ [0x21#8, 0x41#8] → t.keybuf = s.keybuf) ∧
    (i.opcode ∉ [0x20#8, 0x21#8, 0x41#8] → t.klen = s.klen) ∧
    (i.opcode ∉ [0x01#8, 0x30#8, 0x32#8] → t.slot0 = s.slot0 ∧ t.slot1 = s.slot1) ∧
    (i.opcode ∉ [0x01#8, 0x30#8] → t.bank = s.bank ∧ t.cap = s.cap) ∧
    (i.opcode ∉ [0x01#8, 0x30#8, 0x32#8] → t.size = s.size) ∧
    (i.opcode ∉ [0x01#8, 0x40#8, 0x41#8] → t.icur = s.icur) ∧
    (i.opcode ∉ [0x01#8] → t.tvalid = s.tvalid) ∧
    (i.opcode ∉ [0x01#8, 0x40#8, 0x30#8, 0x32#8] → t.itact = s.itact) ∧
    (t.fault ≠ s.fault ∨ t.fcause ≠ s.fcause ∨ t.fop ≠ s.fop → s.fault = false ∧ t.fault = true)

/-- 41_keybuf R123: HKEY, INSERT, GET and REMOVE leave the key buffer as it is; of all that can happen only
KCLR, KPUSH, ITNEXT and reset change it; a command that faults does not. -/
def Obligations.KeyBufferPersists : Prop :=
  (∀ (i : Instr) (s t : State), i = .hkey ∨ (∃ v, i = .insert v) ∨ i = .get ∨ i = .remove →
    exec i s = .next t → t.keybuf = s.keybuf ∧ t.klen = s.klen) ∧
  (∀ (s t : State), step s = .next t → t.keybuf ≠ s.keybuf ∨ t.klen ≠ s.klen →
    (∃ w rest, s.inputs = .cmd w :: rest ∧ t.fault = false ∧
      (decode w = .ok .kclr ∨ (∃ b, decode w = .ok (.kpush b)) ∨ decode w = .ok .itnext)) ∨
    (∃ rest, s.inputs = .rst :: rest) ∨ (∃ w rest, s.inputs = .cmdThenRst w :: rest))

/-- 43_iterate R173: INSERT always, REMOVE when it removes, and CONSTRUCT clear `ITACT`, and an ITNEXT with no
ITSTART between then raises IterInactive. -/
def Obligations.TableChangesEndTheIteration : Prop :=
  ∀ s t : State, s.fault = false →
    (∃ v, exec (.insert v) s = .next t ∧ t.fault = false) ∨
    (exec .remove s = .next t ∧ t.fault = false ∧ s.lookup s.key ≠ none) ∨
    exec .construct s = .next t →
    t.itact = false ∧ exec .itnext t = .next (t.raised 0x41#8 6#8)

/-! ## The hash (40_hash) -/

/-- R100 to R103 in exact arithmetic: `x` is `h` with its low byte exclusive-or-ed, the four partial products,
the two sums modulo `2^64`, the reduction modulo `2^64 − 1`. -/
def Obligations.OneRoundInExactArithmetic : Prop :=
  ∀ (c : Config) (h : Word) (b : Byte),
    let x := h.toNat ^^^ b.toNat
    let xh := x / 2 ^ 32
    let xl := x % 2 ^ 32
    let ph := c.prime.toNat / 2 ^ 32
    let pl := c.prime.toNat % 2 ^ 32
    let mid := (xh * pl + xl * ph + (if c.mulHH then xh * ph else 0)) % 2 ^ 64
    (fnvStep c h b).toNat = (mid * 2 ^ 32 + xl * pl) % 2 ^ 64 % (2 ^ 64 - 1)

/-- R106, first part: with `MUL_HH = 0` the split multiply is multiplication modulo `2^64`; with `MUL_HH = 1` it
is off by `hi(x) * ph * 2^32`; the two agree exactly when `(hi(x) * ph) mod 2^32 = 0`; the low 32 bits
are `lo(ll)` under both. -/
def Obligations.SplitMultiplyAgainstTheTrueProduct : Prop :=
  ∀ (c : Config) (x : Word),
    (fnvMul { c with mulHH := false } x).toNat = x.toNat * c.prime.toNat % 2 ^ 64 ∧
    (fnvMul { c with mulHH := true } x).toNat =
      (x.toNat * c.prime.toNat + hi x * hi c.prime * 2 ^ 32) % 2 ^ 64 ∧
    (fnvMul { c with mulHH := false } x = fnvMul { c with mulHH := true } x ↔
      hi x * hi c.prime % 2 ^ 32 = 0) ∧
    (fnvMul c x).toNat % 2 ^ 32 = lo x * lo c.prime % 2 ^ 32

/-- R106, R19: when `hi(BASIS) = 0`, digests of inputs of at most one byte do not depend on `MUL_HH`. -/
def Obligations.ShortDigestsIgnoreMulHh : Prop :=
  ∀ (c : Config) (k : Key), hi c.basis = 0 → k.length ≤ 1 →
    fnvHash { c with mulHH := false } k = fnvHash { c with mulHH := true } k

/-- R107 (b), (c), (d): the empty digest is the basis; every other digest is below `2^64 − 1`; a digest is
continued by absorbing further bytes. -/
def Obligations.DigestsStayBelowAllOnes : Prop :=
  ∀ (c : Config),
    fnvHash c [] = c.basis ∧
    (∀ k : Key, k ≠ [] → (fnvHash c k).toNat < 2 ^ 64 - 1) ∧
    (∀ s t : Key, fnvHash c (s ++ t) = t.foldl (fnvStep c) (fnvHash c s))

/-- R109, R110, 30_encoding R81: the streaming sequence HASH, of any length, and the key-buffer sequence HASHK,
up to `KEY_MAX` bytes, leave the digest of the same bytes in `H` and answer it. -/
def Obligations.StreamingAndKeyBufferDigestsAgree : Prop :=
  ∀ (s : State) (k : Key) (rest : List HostInput), s.fault = false →
    (s.inputs = inputsOf (expandPseudo (.hash k)) ++ rest →
      ∃ t : State, Host.Core.run Sys2Proof.core (k.length + 2) s = .next t ∧ t.inputs = rest ∧
        t.h = fnvHash s.cfg k ∧ t.rsps.getLast? = some (dataWord (fnvHash s.cfg k))) ∧
    (s.inputs = inputsOf (expandPseudo (.hashk k)) ++ rest → k.length ≤ s.cfg.keyMax.toNat →
      ∃ t : State, Host.Core.run Sys2Proof.core (k.length + 2) s = .next t ∧ t.inputs = rest ∧
        t.key = k ∧ t.h = fnvHash s.cfg k ∧ t.rsps.getLast? = some (dataWord (fnvHash s.cfg k)))

/-! ## The table (42_table) -/

/-- R130, 20_memory R54: a home index is the narrowed digest's remainder, below the capacity; so are the slots
the key commands and the iterator read. -/
def Obligations.SlotAccessesStayInTheTable : Prop :=
  (∀ (cfg : Config) (d : Word) (c : Nat), 0 < c →
    home cfg d c < c ∧ (cfg.idxBits = .bits64 → home cfg d c = d.toNat % c) ∧
      (cfg.idxBits = .bits32 → home cfg d c = d.toNat % 2 ^ 32 % c)) ∧
  (∀ s : State, 0 < s.cap.toNat → s.homeIndex < s.cap.toNat) ∧
  (∀ (s : State) (i : Nat), s.nextOccupied = some i → s.icur.toNat ≤ i ∧ i < s.cap.toNat)

/-- R133 to R135, of which the spec marks R135 as derived from the other two: the load comparison is `4n > 3c`, first true at `(3c) div 4 + 1`; the growth rule, which always
grows; the first terms of the capacity sequence and their thresholds. -/
def Obligations.LoadAndGrowthArithmetic : Prop :=
  (∀ n c : Nat, (overLoad n c = true ↔ 3 * c < 4 * n) ∧
    (overLoad n c = true ↔ 3 * c / 4 + 1 ≤ n)) ∧
  (∀ c : Nat, (c < 1000 → newcap c = 2 * c) ∧ (1000 ≤ c → newcap c = 8 * c / 5) ∧
    (1 ≤ c → c < newcap c)) ∧
  (List.range 15).map growth = [127, 254, 508, 1016, 1625, 2600, 4160, 6656, 10649, 17038, 27260,
    43616, 69785, 111656, 178649] ∧
  ((List.range 8).map fun n => 3 * growth n / 4 + 1) =
    [96, 191, 382, 763, 1219, 1951, 3121, 4993]

/-- R141, R153, R158 (a), (b), for one INSERT that does not resize: afterwards the table answers the new value
for `KEY`, "not found" for every other key with the same home, and what it answered before for every
other key. -/
def Obligations.InsertUpdatesTheTableAsAMap : Prop :=
  ∀ (s t : State) (val : Word), s.fault = false → exec (.insert val) s = .next t →
    t.fault = false → t.cap = s.cap → t.bank = s.bank →
    ∀ k : Key, t.lookup k =
      if k = s.key then some val
      else if home s.cfg (fnvHash s.cfg k) s.cap.toNat = s.homeIndex then none
      else s.lookup k

/-- R155, R156: after a REMOVE the table answers "not found" for `KEY` and what it answered before for every
other key; the freed slot is filled and counted by a later INSERT like any empty slot. -/
def Obligations.RemoveErasesOnlyItsKey : Prop :=
  ∀ s t : State, s.fault = false → exec .remove s = .next t → t.fault = false →
    (∀ k : Key, t.lookup k = if k = s.key then none else s.lookup k) ∧
    (s.lookup s.key ≠ none → t.slotRead t.homeIndex = { occ := false, key := [], val := 0#64 })

/-- R148: a resize that doubles the capacity loses nothing: after the INSERT the table answers the new value
for `KEY` and, for every other key, what it answered before; the number of occupied slots has gone up
by one. -/
def Obligations.DoublingResizeLosesNothing : Prop :=
  ∀ (s t : State) (val : Word), s.Inv → s.fault = false → exec (.insert val) s = .next t →
    t.fault = false → s.cap.toNat < 1000 → t.cap ≠ s.cap →
    (∀ k : Key, t.lookup k = if k = s.key then some val else s.lookup k) ∧
    t.occupied = s.occupied + 1

/-- R150: one resize is enough: `4 * SIZE <= 3 * CAP` holds again after every INSERT that executes. -/
def Obligations.OneResizeRestoresTheLoad : Prop :=
  ∀ (s t : State) (val : Word), s.fault = false → 127 ≤ s.cap.toNat →
    4 * s.size.toNat ≤ 3 * s.cap.toNat → exec (.insert val) s = .next t → t.fault = false →
    4 * t.size.toNat ≤ 3 * t.cap.toNat

/-- R157: an INSERT that fills counts exactly one more without leaving 32 bits, and a REMOVE that removes finds
`SIZE >= 1` and counts exactly one less. -/
def Obligations.SizeNeverWraps : Prop :=
  ∀ s t : State, s.Inv → s.fault = false → t.fault = false →
    (∀ val, exec (.insert val) s = .next t → (s.slotRead s.homeIndex).occ = false →
      t.size.toNat = s.size.toNat + 1 ∧ t.size.toNat ≤ 3 * s.cap.toNat / 4 + 1) ∧
    (exec .remove s = .next t → s.lookup s.key ≠ none → t.size.toNat + 1 = s.size.toNat)

/-- R149, R158 (c): where `SIZE` equals the number of occupied slots it goes on doing so under every step but a
resize from a capacity of 1000 or more, the first that can lose entries; and it is never below it. -/
def Obligations.SizeCountsTheOccupiedSlots : Prop :=
  ∀ s t : State, s.Inv → step s = .next t →
    t.occupied ≤ t.size.toNat ∧
    (s.size.toNat = s.occupied → ¬ (1000 ≤ s.cap.toNat ∧ s.cap.toNat < t.cap.toNat) →
      t.size.toNat = t.occupied)

/-- R133, R158 (d): in a table of 127 slots the 96th fill, and no earlier one, doubles the capacity to 254. -/
def Obligations.NinetySixthFillDoubles : Prop :=
  ∀ (s : State) (val : Word), s.fault = false → s.tvalid = true → s.cap = 127#32 →
    254 ≤ s.cfg.capMax.toNat → (s.slotRead s.homeIndex).occ = false →
    ∃ t : State, exec (.insert val) s = .next t ∧ t.fault = false ∧
      t.cap = if s.size.toNat + 1 < 96 then 127#32 else 254#32

/-- R158 (a), (b) on a fresh table, over the pseudo-commands of 30_encoding R81: after reset, CONSTRUCT,
PUT k1, v1 and PUT k2, v2, a LOOKUP answers v2 for k2; for k1 it answers v1 when the two home indices
differ and "not found" when they are equal; "not found" for every other key. -/
def Obligations.TwoInsertsOnAFreshTable : Prop :=
  ∀ (c : Config) (k1 k2 k : Key) (v1 v2 : Word), c.wf = true → k1 ≠ k2 →
    k1.length ≤ c.keyMax.toNat → k2.length ≤ c.keyMax.toNat → k.length ≤ c.keyMax.toNat →
    let is := .construct :: (expandPseudo (.put k1 v1) ++ expandPseudo (.put k2 v2)
      ++ expandPseudo (.lookup k))
    ∃ t : State,
      Host.Core.run Sys2Proof.core is.length { State.resetWith c with inputs := inputsOf is }
        = .next t ∧
      t.fault = false ∧ t.rsps.length = is.length ∧
      t.rsps.getLast? = some (lookupWord (
        if k = k2 then some v2
        else if k = k1 ∧ home c (fnvHash c k1) 127 ≠ home c (fnvHash c k2) 127 then some v1
        else none))

/-! ## The iterator (43_iterate) -/

/-- R170, R174: an ITSTART and n ITNEXT answer the pairs of the occupied slots in ascending index order, each
once, then NONE; each pair's key is in the key buffer after its ITNEXT; the table is as before. Stored
keys are at most `KEY_MAX` long (10_state R42 (f), an invariant). -/
def Obligations.IterationYieldsEachPairOnce : Prop :=
  ∀ (s : State) (n : Nat) (rest : List HostInput), s.fault = false → s.tvalid = true →
    (∀ i, i < s.cap.toNat → (s.slotRead i).key.length ≤ s.cfg.keyMax.toNat) →
    s.inputs = inputsOf (.itstart :: List.replicate n .itnext) ++ rest →
    let occ := (List.range s.cap.toNat).filter fun i => (s.slotRead i).occ
    ∃ t : State, Host.Core.run Sys2Proof.core (n + 1) s = .next t ∧ t.inputs = rest ∧
      t.rsps = s.rsps ++ doneWord ::
        ((occ.take n).map (fun i => dataWord (s.slotRead i).val)
          ++ List.replicate (n - occ.length) noneWord) ∧
      (∀ m, n = m + 1 → ∀ h : m < occ.length, t.key = (s.slotRead occ[m]).key) ∧
      t.slot0 = s.slot0 ∧ t.slot1 = s.slot1 ∧ t.bank = s.bank ∧ t.cap = s.cap ∧ t.size = s.size

/-- R170: the commands that do not change the table leave the iteration alone: cursor, `ITACT` and every slot
are as before, also when they raise a fault. -/
def Obligations.OtherCommandsLeaveTheIterationAlone : Prop :=
  ∀ (i : Instr) (s t : State), exec i s = .next t →
    i ∈ [Instr.nop, .hinit, .hkey, .kclr, .get] ∨ (∃ r, i = .rdreg r) ∨ (∃ b, i = .habsorb b) ∨
      (∃ b, i = .kpush b) ∨ (∃ x, i = .kread x) ∨ (i = .remove ∧ s.lookup s.key = none) →
    t.icur = s.icur ∧ t.itact = s.itact ∧ t.tvalid = s.tvalid ∧ t.cap = s.cap ∧ t.bank = s.bank ∧
    t.slot0 = s.slot0 ∧ t.slot1 = s.slot1 ∧ t.size = s.size

/-! ## Invariants and isolation -/

/-- 10_state R42: every step keeps the invariant, from every state that has it. -/
def Obligations.EveryStepKeepsTheInvariant : Prop :=
  ∀ s t : State, s.Inv → step s = .next t → t.Inv

/-- 10_state R42: the invariant holds after reset, for all legal parameters, and of `State.reset`. -/
def Obligations.ResetHasTheInvariant : Prop :=
  (∀ c : Config, c.wf = true → (State.resetWith c).Inv) ∧ State.reset.Inv

/-- 10_state R38, R39: no step changes a parameter, so the hardwired registers `0x07` to `0x0B` read the same at
all times. -/
def Obligations.HardwiredRegistersNeverChange : Prop :=
  ∀ s t : State, step s = .next t → t.cfg = s.cfg ∧
    ∀ r : Byte, 0x07 ≤ r.toNat → r.toNat ≤ 0x0B → ∃ v : Word,
      exec (.rdreg r) s = .next (s.told (dataWord v)) ∧
      exec (.rdreg r) t = .next (t.told (dataWord v))

/-- 10_state R27, R29, R40: no command's response, and no state a later command could show, depends on
key-buffer bytes from `KLEN` up, on the bank that is not current or on slots from `CAP` up. With a
table `CAP` is not 0 (R42 (b), an invariant). -/
def Obligations.UnobservableStateNeverShows : Prop :=
  ∀ s t s' t' : State, SameToHost s t → (s.tvalid = true → 0 < s.cap.toNat) →
    step s = .next s' → step t = .next t' → SameToHost s' t'

/-- 60_exceptions R208, 70_reset R222: from reset, well-formed commands in the order asked for there raise no
fault but KeyOverflow and CapacityExhausted, the two that condition (e) rules out. The order counts
every REMOVE as a change of the table, also one that finds nothing: that is the model's choice
(entry 13), stricter than R208 (d). -/
def Obligations.OrderedCommandsFaultOnlyWhenFull : Prop :=
  ∀ (c : Config) (is : List Instr) (n : Nat) (t : State), c.wf = true →
    inOrder false false is = true →
    Host.Core.run Sys2Proof.core n { State.resetWith c with inputs := inputsOf is } = .next t →
    t.fault = true → t.fcause = 4#8 ∨ t.fcause = 7#8
end

