-- ==== Sys2Proof/Laws/Encoding.lean ====
section
/-! SUPPORT. The fields of a command word and the decoder, format by format. -/

namespace Sys2Proof

@[simp] theorem CmdWord.op_mk (op : Byte) (arg : Word) : CmdWord.op (CmdWord.mk op arg) = op := by
  simp only [CmdWord.op, CmdWord.mk]
  ext i hi
  have h := BitVec.getLsbD_append (x := op) (y := arg) (i := 64 + i)
  simp only [BitVec.getElem_extractLsb']
  exact h.trans (by simp [BitVec.getLsbD_eq_getElem hi])

@[simp] theorem CmdWord.arg_mk (op : Byte) (arg : Word) : CmdWord.arg (CmdWord.mk op arg) = arg := by
  simp only [CmdWord.arg, CmdWord.mk]
  ext i hi
  have h := BitVec.getLsbD_append (x := op) (y := arg) (i := i)
  simp only [BitVec.getElem_extractLsb', Nat.zero_add]
  exact h.trans (by simp [hi])

/-- A command word is its two fields (R70). -/
theorem CmdWord.mk_op_arg (w : CmdWord) : CmdWord.mk (CmdWord.op w) (CmdWord.arg w) = w := by
  simp only [CmdWord.op, CmdWord.arg, CmdWord.mk]
  ext i hi
  rw [BitVec.getElem_append]
  split
  · simp_all
  · have h : 64 + (i - 64) = i := by omega
    simp [h, BitVec.getLsbD_eq_getElem (show i < 72 from hi)]

/-- The opcode field as a number. -/
theorem CmdWord.toNat_op (w : CmdWord) : (CmdWord.op w).toNat = w.toNat / 2 ^ 64 := by
  have := w.isLt
  simp only [CmdWord.op, BitVec.extractLsb'_toNat, Nat.shiftRight_eq_div_pow]
  omega

/-- The argument field as a number. -/
theorem CmdWord.toNat_arg (w : CmdWord) : (CmdWord.arg w).toNat = w.toNat % 2 ^ 64 := by
  simp [CmdWord.arg, BitVec.extractLsb'_toNat]

theorem decode_mk (op : Byte) (arg : Word) : decode (CmdWord.mk op arg) = decodeFields op arg := by
  simp [decode]

/-! ## The three checks of reserved bits -/

theorem decodeZ_eq (i : Instr) (arg : Word) :
    decodeZ i arg = if arg.toNat < 2 ^ 0 then .ok i else .error .reservedBits := by
  have h : arg = 0#64 ↔ arg.toNat < 2 ^ 0 := by
    constructor
    · rintro rfl; decide
    · intro h; apply BitVec.eq_of_toNat_eq; simp; omega
  simp only [decodeZ, h]

theorem decodeByte_eq (f : Byte → Instr) (arg : Word) :
    decodeByte f arg =
      if arg.toNat < 2 ^ 8 then .ok (f (BitVec.ofNat 8 arg.toNat)) else .error .reservedBits := by
  have hlt := arg.isLt
  have h : arg.extractLsb' 8 56 = 0#56 ↔ arg.toNat < 2 ^ 8 := by
    rw [← BitVec.toNat_inj, BitVec.extractLsb'_toNat, Nat.shiftRight_eq_div_pow]
    simp only [BitVec.toNat_ofNat]
    omega
  have h0 : arg.extractLsb' 0 8 = BitVec.ofNat 8 arg.toNat := by
    apply BitVec.eq_of_toNat_eq
    simp [BitVec.extractLsb'_toNat]
  simp only [decodeByte, h, h0]

theorem decodeX_eq (f : BitVec 16 → Instr) (arg : Word) :
    decodeX f arg =
      if arg.toNat < 2 ^ 16 then .ok (f (BitVec.ofNat 16 arg.toNat)) else .error .reservedBits := by
  have hlt := arg.isLt
  have h : arg.extractLsb' 16 48 = 0#48 ↔ arg.toNat < 2 ^ 16 := by
    rw [← BitVec.toNat_inj, BitVec.extractLsb'_toNat, Nat.shiftRight_eq_div_pow]
    simp only [BitVec.toNat_ofNat]
    omega
  have h0 : arg.extractLsb' 0 16 = BitVec.ofNat 16 arg.toNat := by
    apply BitVec.eq_of_toNat_eq
    simp [BitVec.extractLsb'_toNat]
  simp only [decodeX, h, h0]

/-- What a word that passes the three checks says: the operand, and nothing above it. -/
theorem decodeZ_ok {i j : Instr} {arg : Word} (h : decodeZ i arg = .ok j) : arg = 0#64 ∧ i = j := by
  rw [decodeZ] at h
  split at h
  · exact ⟨‹_›, Except.ok.inj h⟩
  · cases h

theorem decodeByte_ok {f : Byte → Instr} {j : Instr} {arg : Word} (h : decodeByte f arg = .ok j) :
    ∃ b : Byte, arg = b.setWidth 64 ∧ f b = j := by
  rw [decodeByte_eq] at h
  split at h
  · refine ⟨_, BitVec.eq_of_toNat_eq ?_, Except.ok.inj h⟩
    rw [BitVec.toNat_setWidth, BitVec.toNat_ofNat]
    omega
  · cases h

theorem decodeX_ok {f : BitVec 16 → Instr} {j : Instr} {arg : Word} (h : decodeX f arg = .ok j) :
    ∃ x : BitVec 16, arg = x.setWidth 64 ∧ f x = j := by
  rw [decodeX_eq] at h
  split at h
  · refine ⟨_, BitVec.eq_of_toNat_eq ?_, Except.ok.inj h⟩
    rw [BitVec.toNat_setWidth, BitVec.toNat_ofNat]
    omega
  · cases h

/-! ## The opcode map, row by row (R73) -/

@[simp] theorem decodeFields_nop (arg : Word) : decodeFields 0x00#8 arg = decodeZ .nop arg := rfl
@[simp] theorem decodeFields_construct (arg : Word) : decodeFields 0x01#8 arg = decodeZ .construct arg := rfl
@[simp] theorem decodeFields_rdreg (arg : Word) : decodeFields 0x02#8 arg = decodeByte .rdreg arg := rfl
@[simp] theorem decodeFields_hinit (arg : Word) : decodeFields 0x10#8 arg = decodeZ .hinit arg := rfl
@[simp] theorem decodeFields_habsorb (arg : Word) : decodeFields 0x11#8 arg = decodeByte .habsorb arg := rfl
@[simp] theorem decodeFields_hkey (arg : Word) : decodeFields 0x12#8 arg = decodeZ .hkey arg := rfl
@[simp] theorem decodeFields_kclr (arg : Word) : decodeFields 0x20#8 arg = decodeZ .kclr arg := rfl
@[simp] theorem decodeFields_kpush (arg : Word) : decodeFields 0x21#8 arg = decodeByte .kpush arg := rfl
@[simp] theorem decodeFields_kread (arg : Word) : decodeFields 0x22#8 arg = decodeX .kread arg := rfl
@[simp] theorem decodeFields_insert (arg : Word) : decodeFields 0x30#8 arg = decodeV .insert arg := rfl
@[simp] theorem decodeFields_get (arg : Word) : decodeFields 0x31#8 arg = decodeZ .get arg := rfl
@[simp] theorem decodeFields_remove (arg : Word) : decodeFields 0x32#8 arg = decodeZ .remove arg := rfl
@[simp] theorem decodeFields_itstart (arg : Word) : decodeFields 0x40#8 arg = decodeZ .itstart arg := rfl
@[simp] theorem decodeFields_itnext (arg : Word) : decodeFields 0x41#8 arg = decodeZ .itnext arg := rfl

/-- The fourteen opcodes (60_exceptions R192), or the word is illegal (R76). -/
theorem decodeFields_illegal {op : Byte}
    (h : op ∉ [0x00#8, 0x01#8, 0x02#8, 0x10#8, 0x11#8, 0x12#8, 0x20#8, 0x21#8, 0x22#8, 0x30#8, 0x31#8,
      0x32#8, 0x40#8, 0x41#8]) (arg : Word) : decodeFields op arg = .error .illegalOpcode := by
  unfold decodeFields
  split <;> first | rfl | exact absurd (by decide) h

/-! ## Register numbers -/

theorem RegName.ofNumber_number (r : RegName) : RegName.ofNumber r.number = some r := by
  cases r <;> rfl

/-- The numbers from `0x0C` up are unassigned, and no others (10_state R37). -/
theorem RegName.ofNumber_eq_none (n : Byte) : RegName.ofNumber n = none ↔ 0x0B < n.toNat := by
  revert n; decide

end Sys2Proof
end

