-- ==== Sys2Proof/Laws/Memory.lean ====
section
/-! SUPPORT. The laws of indexed memories: read after write, which hold of every list, and that every operation
keeps the canonical form and the range of listed indices. -/

namespace Sys2Proof.Machine

section Read

variable {α : Type} (d : α)

@[simp] theorem Memory.read_nil (a : Nat) : Memory.read d [] a = d := rfl

theorem Memory.read_cons (b : Nat) (w : α) (m : Memory α) (a : Nat) :
    Memory.read d ((b, w) :: m) a = if b = a then w else Memory.read d m a := rfl

theorem Memory.read_erase (m : Memory α) (a i : Nat) :
    Memory.read d (Memory.erase m a) i = if i = a then d else Memory.read d m i := by
  induction m with
  | nil => simp [Memory.erase]
  | cons e m ih =>
    obtain ⟨b, w⟩ := e
    rw [Memory.erase, List.filter_cons]
    by_cases hb : b = a
    · subst hb
      simp only [ne_eq, not_true_eq_false, decide_false, Bool.false_eq_true, if_false]
      rw [← Memory.erase, ih, Memory.read_cons]
      by_cases hi : i = b
      · simp [hi]
      · rw [if_neg hi, if_neg hi, if_neg (fun h => hi h.symm)]
    · simp only [ne_eq, hb, not_false_eq_true, decide_true, if_true]
      rw [← Memory.erase, Memory.read_cons, ih, Memory.read_cons]
      by_cases hi : b = i
      · simp [hi, show ¬ i = a from fun h => hb (hi.trans h)]
      · simp [hi]

theorem Memory.read_place {m : Memory α} {a : Nat} (h : ∀ e ∈ m, e.1 ≠ a) (v : α) (i : Nat) :
    Memory.read d (Memory.place a v m) i = if i = a then v else Memory.read d m i := by
  induction m with
  | nil =>
    rw [Memory.place, Memory.read_cons]
    by_cases hi : i = a
    · simp [hi]
    · simp [hi, show ¬ a = i from fun e => hi e.symm]
  | cons e m ih =>
    obtain ⟨b, w⟩ := e
    have hb : b ≠ a := h (b, w) (by simp)
    have hm := ih fun e he => h e (List.mem_cons_of_mem _ he)
    rw [Memory.place]
    split
    · rw [Memory.read_cons]
      by_cases hi : i = a
      · simp [hi]
      · rw [if_neg (fun e => hi e.symm), if_neg hi]
    · rw [Memory.read_cons, hm, Memory.read_cons]
      by_cases hi : b = i
      · simp [hi, show ¬ i = a from fun e => hb (hi.trans e)]
      · simp [hi]

theorem Memory.erase_ne (m : Memory α) (a : Nat) : ∀ e ∈ Memory.erase m a, e.1 ≠ a := by
  intro e he
  have := (List.mem_filter.mp he).2
  simpa using this

end Read

variable {α : Type} [DecidableEq α] (d : α)

/-- Read after write. -/
theorem Memory.read_write (m : Memory α) (a : Nat) (v : α) (i : Nat) :
    Memory.read d (Memory.write d m a v) i = if i = a then v else Memory.read d m i := by
  rw [Memory.write]
  split
  · rename_i hv
    rw [Memory.read_erase, hv]
  · rw [Memory.read_place d (Memory.erase_ne m a), Memory.read_erase]
    by_cases hi : i = a <;> simp [hi]

/-- Read after a fill of the indices below `n`. -/
theorem Memory.read_fill (v : α) (n : Nat) (m : Memory α) (i : Nat) :
    Memory.read d (Memory.fill d v n m) i = if i < n then v else Memory.read d m i := by
  rw [Memory.fill]
  induction n generalizing i with
  | zero => simp
  | succ n ih =>
    rw [List.range_succ, List.foldl_append, List.foldl_cons, List.foldl_nil, Memory.read_write, ih]
    by_cases hi : i = n
    · simp [hi]
    · by_cases hl : i < n
      · simp [hi, hl, show i < n + 1 by omega]
      · simp [hi, hl, show ¬ i < n + 1 by omega]

/-- Read after a write of a list from index `a` up. -/
theorem Memory.read_writeList (vs : List α) (m : Memory α) (a i : Nat) :
    Memory.read d (Memory.writeList d m a vs) i =
      if a ≤ i then (vs[i - a]?).getD (Memory.read d m i) else Memory.read d m i := by
  induction vs generalizing m a with
  | nil => simp [Memory.writeList]
  | cons v vs ih =>
    rw [Memory.writeList, ih, Memory.read_write]
    by_cases h : a + 1 ≤ i
    · obtain ⟨k, rfl⟩ : ∃ k, i = a + 1 + k := ⟨i - (a + 1), by omega⟩
      have h1 : a + 1 + k - (a + 1) = k := by omega
      have h2 : a + 1 + k - a = k + 1 := by omega
      simp [h, h1, h2, show ¬ a + 1 + k = a by omega, show a ≤ a + 1 + k by omega]
    · by_cases hi : i = a
      · subst hi; simp
      · simp [h, hi, show ¬ a ≤ i by omega]

/-! ## The canonical form -/

theorem Memory.wfFrom_cons (lo a : Nat) (v : α) (m : Memory α) :
    Memory.wfFrom d lo ((a, v) :: m) = true ↔
      lo ≤ a ∧ v ≠ d ∧ Memory.wfFrom d (a + 1) m = true := by
  simp [Memory.wfFrom, and_assoc]

theorem Memory.wfFrom_mono {lo lo' : Nat} (h : lo' ≤ lo) {m : Memory α}
    (hm : Memory.wfFrom d lo m = true) : Memory.wfFrom d lo' m = true := by
  cases m with
  | nil => rfl
  | cons e m =>
    obtain ⟨a, v⟩ := e
    rw [Memory.wfFrom_cons] at hm ⊢
    exact ⟨h.trans hm.1, hm.2⟩

theorem Memory.erase_wfFrom {lo : Nat} {m : Memory α} (hm : Memory.wfFrom d lo m = true) (a : Nat) :
    Memory.wfFrom d lo (Memory.erase m a) = true := by
  induction m generalizing lo with
  | nil => rfl
  | cons e m ih =>
    obtain ⟨b, w⟩ := e
    rw [Memory.wfFrom_cons] at hm
    rw [Memory.erase, List.filter_cons, ← Memory.erase]
    split
    · rw [Memory.wfFrom_cons]
      exact ⟨hm.1, hm.2.1, ih hm.2.2⟩
    · exact Memory.wfFrom_mono d (by omega) (ih hm.2.2)

theorem Memory.place_wfFrom {lo a : Nat} (ha : lo ≤ a) {v : α} (hv : v ≠ d) {m : Memory α}
    (h : ∀ e ∈ m, e.1 ≠ a) (hm : Memory.wfFrom d lo m = true) :
    Memory.wfFrom d lo (Memory.place a v m) = true := by
  induction m generalizing lo with
  | nil => simp [Memory.place, Memory.wfFrom, ha, hv]
  | cons e m ih =>
    obtain ⟨b, w⟩ := e
    have hb : b ≠ a := h (b, w) (by simp)
    have hc := (Memory.wfFrom_cons d lo b w m).mp hm
    rw [Memory.place]
    split
    · rename_i hlt
      rw [Memory.wfFrom_cons, Memory.wfFrom_cons]
      exact ⟨ha, hv, by omega, hc.2⟩
    · rw [Memory.wfFrom_cons]
      exact ⟨hc.1, hc.2.1, ih (by omega) (fun e he => h e (List.mem_cons_of_mem _ he)) hc.2.2⟩

/-- A write keeps the canonical form. -/
theorem Memory.write_wf (a : Nat) (v : α) {m : Memory α} (hm : Memory.wf d m = true) :
    Memory.wf d (Memory.write d m a v) = true := by
  rw [Memory.write]
  split
  · exact Memory.erase_wfFrom d hm a
  · exact Memory.place_wfFrom d (Nat.zero_le a) ‹_› (Memory.erase_ne m a) (Memory.erase_wfFrom d hm a)

/-- A fill keeps the canonical form. -/
theorem Memory.fill_wf (v : α) (n : Nat) {m : Memory α} (hm : Memory.wf d m = true) :
    Memory.wf d (Memory.fill d v n m) = true := by
  rw [Memory.fill]
  induction n with
  | zero => exact hm
  | succ n ih =>
    rw [List.range_succ, List.foldl_append]
    exact Memory.write_wf d n v ih

/-- A write of a list keeps the canonical form. -/
theorem Memory.writeList_wf (vs : List α) (a : Nat) {m : Memory α} (hm : Memory.wf d m = true) :
    Memory.wf d (Memory.writeList d m a vs) = true := by
  induction vs generalizing m a with
  | nil => exact hm
  | cons v vs ih => exact ih (a + 1) (Memory.write_wf d a v hm)

/-! ## The range of listed indices -/

omit [DecidableEq α] in
theorem Memory.erase_below {n : Nat} {m : Memory α} (hm : Memory.below n m) (a : Nat) :
    Memory.below n (Memory.erase m a) :=
  fun e he => hm e (List.mem_filter.mp he).1

omit [DecidableEq α] in
theorem Memory.place_below {n a : Nat} (ha : a < n) (v : α) {m : Memory α} (hm : Memory.below n m) :
    Memory.below n (Memory.place a v m) := by
  induction m with
  | nil => intro e he; simp [Memory.place] at he; simpa [he] using ha
  | cons e m ih =>
    obtain ⟨b, w⟩ := e
    have ht : Memory.below n m := fun e he => hm e (List.mem_cons_of_mem _ he)
    rw [Memory.place]
    split
    · intro e he
      rcases List.mem_cons.mp he with rfl | he
      · exact ha
      · exact hm e he
    · intro e he
      rcases List.mem_cons.mp he with rfl | he
      · exact hm _ (by simp)
      · exact ih ht e he

theorem Memory.write_below {n a : Nat} (ha : a < n) (v : α) {m : Memory α} (hm : Memory.below n m) :
    Memory.below n (Memory.write d m a v) := by
  rw [Memory.write]
  split
  · exact Memory.erase_below hm a
  · exact Memory.place_below ha v (Memory.erase_below hm a)

theorem Memory.fill_below {n k : Nat} (hk : k ≤ n) (v : α) {m : Memory α} (hm : Memory.below n m) :
    Memory.below n (Memory.fill d v k m) := by
  rw [Memory.fill]
  induction k with
  | zero => exact hm
  | succ k ih =>
    rw [List.range_succ, List.foldl_append]
    exact Memory.write_below d (by omega) v (ih (by omega))

theorem Memory.writeList_below {n : Nat} (vs : List α) {a : Nat} (h : a + vs.length ≤ n)
    {m : Memory α} (hm : Memory.below n m) : Memory.below n (Memory.writeList d m a vs) := by
  induction vs generalizing m a with
  | nil => exact hm
  | cons v vs ih =>
    simp only [List.length_cons] at h
    exact ih (by omega) (Memory.write_below d (by omega) v hm)

/-- Two canonical memories that read the same are the same. -/
theorem Memory.ext_of_wf {lo : Nat} {m m' : Memory α} (hm : Memory.wfFrom d lo m = true)
    (hm' : Memory.wfFrom d lo m' = true) (h : ∀ i, Memory.read d m i = Memory.read d m' i) :
    m = m' := by
  have low : ∀ {lo a : Nat} {m : Memory α}, a < lo → Memory.wfFrom d lo m = true →
      Memory.read d m a = d := by
    intro lo a m ha hw
    induction m generalizing lo with
    | nil => rfl
    | cons e m ih =>
      obtain ⟨b, v⟩ := e
      rw [Memory.wfFrom_cons] at hw
      rw [Memory.read_cons, if_neg (by omega)]
      exact ih (by omega) hw.2.2
  induction m generalizing lo m' with
  | nil =>
    cases m' with
    | nil => rfl
    | cons e m' =>
      obtain ⟨b, v⟩ := e
      rw [Memory.wfFrom_cons] at hm'
      have := h b
      simp [Memory.read_cons] at this
      exact absurd this.symm hm'.2.1
  | cons e m ih =>
    obtain ⟨b, v⟩ := e
    rw [Memory.wfFrom_cons] at hm
    cases m' with
    | nil =>
      have := h b
      simp [Memory.read_cons] at this
      exact absurd this hm.2.1
    | cons e' m' =>
      obtain ⟨b', v'⟩ := e'
      rw [Memory.wfFrom_cons] at hm'
      have hb : b = b' := by
        rcases Nat.lt_trichotomy b b' with hlt | heq | hgt
        · have := h b
          rw [Memory.read_cons, if_pos rfl, Memory.read_cons, if_neg (by omega),
            low (by omega) hm'.2.2] at this
          exact absurd this hm.2.1
        · exact heq
        · have := h b'
          rw [Memory.read_cons, if_neg (by omega), low (by omega) hm.2.2, Memory.read_cons,
            if_pos rfl] at this
          exact absurd this.symm hm'.2.1
      subst hb
      have hv : v = v' := by simpa [Memory.read_cons] using h b
      subst hv
      have hrest : m = m' := by
        apply ih hm.2.2 hm'.2.2
        intro i
        by_cases hi : b = i
        · subst hi
          rw [low (by omega) hm.2.2, low (by omega) hm'.2.2]
        · simpa [Memory.read_cons, hi] using h i
      rw [hrest]

end Sys2Proof.Machine
end

