-- ==== Sys2Proof/Laws/State.lean ====
section
/-! SUPPORT. What each named update of State leaves in each field, one lemma for each field and update. -/

namespace Sys2Proof.Machine

/-! ## A response -/

@[simp] theorem State.respond_cfg (r : Response) (s : State) :
    (s.respond r).cfg = s.cfg := rfl

@[simp] theorem State.respond_h (r : Response) (s : State) :
    (s.respond r).h = s.h := rfl

@[simp] theorem State.respond_keybuf (r : Response) (s : State) :
    (s.respond r).keybuf = s.keybuf := rfl

@[simp] theorem State.respond_klen (r : Response) (s : State) :
    (s.respond r).klen = s.klen := rfl

@[simp] theorem State.respond_slot0 (r : Response) (s : State) :
    (s.respond r).slot0 = s.slot0 := rfl

@[simp] theorem State.respond_slot1 (r : Response) (s : State) :
    (s.respond r).slot1 = s.slot1 := rfl

@[simp] theorem State.respond_bank (r : Response) (s : State) :
    (s.respond r).bank = s.bank := rfl

@[simp] theorem State.respond_cap (r : Response) (s : State) :
    (s.respond r).cap = s.cap := rfl

@[simp] theorem State.respond_size (r : Response) (s : State) :
    (s.respond r).size = s.size := rfl

@[simp] theorem State.respond_icur (r : Response) (s : State) :
    (s.respond r).icur = s.icur := rfl

@[simp] theorem State.respond_tvalid (r : Response) (s : State) :
    (s.respond r).tvalid = s.tvalid := rfl

@[simp] theorem State.respond_itact (r : Response) (s : State) :
    (s.respond r).itact = s.itact := rfl

@[simp] theorem State.respond_fault (r : Response) (s : State) :
    (s.respond r).fault = s.fault := rfl

@[simp] theorem State.respond_fcause (r : Response) (s : State) :
    (s.respond r).fcause = s.fcause := rfl

@[simp] theorem State.respond_fop (r : Response) (s : State) :
    (s.respond r).fop = s.fop := rfl

@[simp] theorem State.respond_inputs (r : Response) (s : State) :
    (s.respond r).inputs = s.inputs := rfl

@[simp] theorem State.respond_rsps (r : Response) (s : State) :
    (s.respond r).rsps = s.rsps ++ [r.word] := rfl

/-! ## A response word -/

@[simp] theorem State.told_cfg (s : State) (r : RspWord) :
    (s.told r).cfg = s.cfg := rfl

@[simp] theorem State.told_h (s : State) (r : RspWord) :
    (s.told r).h = s.h := rfl

@[simp] theorem State.told_keybuf (s : State) (r : RspWord) :
    (s.told r).keybuf = s.keybuf := rfl

@[simp] theorem State.told_klen (s : State) (r : RspWord) :
    (s.told r).klen = s.klen := rfl

@[simp] theorem State.told_slot0 (s : State) (r : RspWord) :
    (s.told r).slot0 = s.slot0 := rfl

@[simp] theorem State.told_slot1 (s : State) (r : RspWord) :
    (s.told r).slot1 = s.slot1 := rfl

@[simp] theorem State.told_bank (s : State) (r : RspWord) :
    (s.told r).bank = s.bank := rfl

@[simp] theorem State.told_cap (s : State) (r : RspWord) :
    (s.told r).cap = s.cap := rfl

@[simp] theorem State.told_size (s : State) (r : RspWord) :
    (s.told r).size = s.size := rfl

@[simp] theorem State.told_icur (s : State) (r : RspWord) :
    (s.told r).icur = s.icur := rfl

@[simp] theorem State.told_tvalid (s : State) (r : RspWord) :
    (s.told r).tvalid = s.tvalid := rfl

@[simp] theorem State.told_itact (s : State) (r : RspWord) :
    (s.told r).itact = s.itact := rfl

@[simp] theorem State.told_fault (s : State) (r : RspWord) :
    (s.told r).fault = s.fault := rfl

@[simp] theorem State.told_fcause (s : State) (r : RspWord) :
    (s.told r).fcause = s.fcause := rfl

@[simp] theorem State.told_fop (s : State) (r : RspWord) :
    (s.told r).fop = s.fop := rfl

@[simp] theorem State.told_inputs (s : State) (r : RspWord) :
    (s.told r).inputs = s.inputs := rfl

@[simp] theorem State.told_rsps (s : State) (r : RspWord) :
    (s.told r).rsps = s.rsps ++ [r] := rfl

/-! ## A refusal in the fault state -/

@[simp] theorem State.refuse_cfg (s : State) :
    (s.refuse).cfg = s.cfg := rfl

@[simp] theorem State.refuse_h (s : State) :
    (s.refuse).h = s.h := rfl

@[simp] theorem State.refuse_keybuf (s : State) :
    (s.refuse).keybuf = s.keybuf := rfl

@[simp] theorem State.refuse_klen (s : State) :
    (s.refuse).klen = s.klen := rfl

@[simp] theorem State.refuse_slot0 (s : State) :
    (s.refuse).slot0 = s.slot0 := rfl

@[simp] theorem State.refuse_slot1 (s : State) :
    (s.refuse).slot1 = s.slot1 := rfl

@[simp] theorem State.refuse_bank (s : State) :
    (s.refuse).bank = s.bank := rfl

@[simp] theorem State.refuse_cap (s : State) :
    (s.refuse).cap = s.cap := rfl

@[simp] theorem State.refuse_size (s : State) :
    (s.refuse).size = s.size := rfl

@[simp] theorem State.refuse_icur (s : State) :
    (s.refuse).icur = s.icur := rfl

@[simp] theorem State.refuse_tvalid (s : State) :
    (s.refuse).tvalid = s.tvalid := rfl

@[simp] theorem State.refuse_itact (s : State) :
    (s.refuse).itact = s.itact := rfl

@[simp] theorem State.refuse_fault (s : State) :
    (s.refuse).fault = s.fault := rfl

@[simp] theorem State.refuse_fcause (s : State) :
    (s.refuse).fcause = s.fcause := rfl

@[simp] theorem State.refuse_fop (s : State) :
    (s.refuse).fop = s.fop := rfl

@[simp] theorem State.refuse_inputs (s : State) :
    (s.refuse).inputs = s.inputs := rfl

@[simp] theorem State.refuse_rsps (s : State) :
    (s.refuse).rsps = s.rsps ++ [(Response.fault s.faultRecord).word] := rfl

/-! ## A fault -/

@[simp] theorem State.raised_cfg (s : State) (op code : Byte) :
    (s.raised op code).cfg = s.cfg := rfl

@[simp] theorem State.raised_h (s : State) (op code : Byte) :
    (s.raised op code).h = s.h := rfl

@[simp] theorem State.raised_keybuf (s : State) (op code : Byte) :
    (s.raised op code).keybuf = s.keybuf := rfl

@[simp] theorem State.raised_klen (s : State) (op code : Byte) :
    (s.raised op code).klen = s.klen := rfl

@[simp] theorem State.raised_slot0 (s : State) (op code : Byte) :
    (s.raised op code).slot0 = s.slot0 := rfl

@[simp] theorem State.raised_slot1 (s : State) (op code : Byte) :
    (s.raised op code).slot1 = s.slot1 := rfl

@[simp] theorem State.raised_bank (s : State) (op code : Byte) :
    (s.raised op code).bank = s.bank := rfl

@[simp] theorem State.raised_cap (s : State) (op code : Byte) :
    (s.raised op code).cap = s.cap := rfl

@[simp] theorem State.raised_size (s : State) (op code : Byte) :
    (s.raised op code).size = s.size := rfl

@[simp] theorem State.raised_icur (s : State) (op code : Byte) :
    (s.raised op code).icur = s.icur := rfl

@[simp] theorem State.raised_tvalid (s : State) (op code : Byte) :
    (s.raised op code).tvalid = s.tvalid := rfl

@[simp] theorem State.raised_itact (s : State) (op code : Byte) :
    (s.raised op code).itact = s.itact := rfl

@[simp] theorem State.raised_fault (s : State) (op code : Byte) :
    (s.raised op code).fault = true := rfl

@[simp] theorem State.raised_fcause (s : State) (op code : Byte) :
    (s.raised op code).fcause = code := rfl

@[simp] theorem State.raised_fop (s : State) (op code : Byte) :
    (s.raised op code).fop = op := rfl

@[simp] theorem State.raised_inputs (s : State) (op code : Byte) :
    (s.raised op code).inputs = s.inputs := rfl

@[simp] theorem State.raised_rsps (s : State) (op code : Byte) :
    (s.raised op code).rsps = s.rsps ++ [faultWord op code] := rfl

/-! ## A bank of slot memory -/

@[simp] theorem State.setBankMem_cfg (s : State) (b : Bool) (m : Memory Slot) :
    (s.setBankMem b m).cfg = s.cfg := by cases b <;> rfl

@[simp] theorem State.setBankMem_h (s : State) (b : Bool) (m : Memory Slot) :
    (s.setBankMem b m).h = s.h := by cases b <;> rfl

@[simp] theorem State.setBankMem_keybuf (s : State) (b : Bool) (m : Memory Slot) :
    (s.setBankMem b m).keybuf = s.keybuf := by cases b <;> rfl

@[simp] theorem State.setBankMem_klen (s : State) (b : Bool) (m : Memory Slot) :
    (s.setBankMem b m).klen = s.klen := by cases b <;> rfl

@[simp] theorem State.setBankMem_slot0 (s : State) (b : Bool) (m : Memory Slot) :
    (s.setBankMem b m).slot0 = if b then s.slot0 else m := by cases b <;> rfl

@[simp] theorem State.setBankMem_slot1 (s : State) (b : Bool) (m : Memory Slot) :
    (s.setBankMem b m).slot1 = if b then m else s.slot1 := by cases b <;> rfl

@[simp] theorem State.setBankMem_bank (s : State) (b : Bool) (m : Memory Slot) :
    (s.setBankMem b m).bank = s.bank := by cases b <;> rfl

@[simp] theorem State.setBankMem_cap (s : State) (b : Bool) (m : Memory Slot) :
    (s.setBankMem b m).cap = s.cap := by cases b <;> rfl

@[simp] theorem State.setBankMem_size (s : State) (b : Bool) (m : Memory Slot) :
    (s.setBankMem b m).size = s.size := by cases b <;> rfl

@[simp] theorem State.setBankMem_icur (s : State) (b : Bool) (m : Memory Slot) :
    (s.setBankMem b m).icur = s.icur := by cases b <;> rfl

@[simp] theorem State.setBankMem_tvalid (s : State) (b : Bool) (m : Memory Slot) :
    (s.setBankMem b m).tvalid = s.tvalid := by cases b <;> rfl

@[simp] theorem State.setBankMem_itact (s : State) (b : Bool) (m : Memory Slot) :
    (s.setBankMem b m).itact = s.itact := by cases b <;> rfl

@[simp] theorem State.setBankMem_fault (s : State) (b : Bool) (m : Memory Slot) :
    (s.setBankMem b m).fault = s.fault := by cases b <;> rfl

@[simp] theorem State.setBankMem_fcause (s : State) (b : Bool) (m : Memory Slot) :
    (s.setBankMem b m).fcause = s.fcause := by cases b <;> rfl

@[simp] theorem State.setBankMem_fop (s : State) (b : Bool) (m : Memory Slot) :
    (s.setBankMem b m).fop = s.fop := by cases b <;> rfl

@[simp] theorem State.setBankMem_inputs (s : State) (b : Bool) (m : Memory Slot) :
    (s.setBankMem b m).inputs = s.inputs := by cases b <;> rfl

@[simp] theorem State.setBankMem_rsps (s : State) (b : Bool) (m : Memory Slot) :
    (s.setBankMem b m).rsps = s.rsps := by cases b <;> rfl

/-! ## A slot write -/

@[simp] theorem State.slotWrite_cfg (s : State) (i : Nat) (r : Slot) :
    (s.slotWrite i r).cfg = s.cfg := by simp [State.slotWrite]

@[simp] theorem State.slotWrite_h (s : State) (i : Nat) (r : Slot) :
    (s.slotWrite i r).h = s.h := by simp [State.slotWrite]

@[simp] theorem State.slotWrite_keybuf (s : State) (i : Nat) (r : Slot) :
    (s.slotWrite i r).keybuf = s.keybuf := by simp [State.slotWrite]

@[simp] theorem State.slotWrite_klen (s : State) (i : Nat) (r : Slot) :
    (s.slotWrite i r).klen = s.klen := by simp [State.slotWrite]

@[simp] theorem State.slotWrite_bank (s : State) (i : Nat) (r : Slot) :
    (s.slotWrite i r).bank = s.bank := by simp [State.slotWrite]

@[simp] theorem State.slotWrite_cap (s : State) (i : Nat) (r : Slot) :
    (s.slotWrite i r).cap = s.cap := by simp [State.slotWrite]

@[simp] theorem State.slotWrite_size (s : State) (i : Nat) (r : Slot) :
    (s.slotWrite i r).size = s.size := by simp [State.slotWrite]

@[simp] theorem State.slotWrite_icur (s : State) (i : Nat) (r : Slot) :
    (s.slotWrite i r).icur = s.icur := by simp [State.slotWrite]

@[simp] theorem State.slotWrite_tvalid (s : State) (i : Nat) (r : Slot) :
    (s.slotWrite i r).tvalid = s.tvalid := by simp [State.slotWrite]

@[simp] theorem State.slotWrite_itact (s : State) (i : Nat) (r : Slot) :
    (s.slotWrite i r).itact = s.itact := by simp [State.slotWrite]

@[simp] theorem State.slotWrite_fault (s : State) (i : Nat) (r : Slot) :
    (s.slotWrite i r).fault = s.fault := by simp [State.slotWrite]

@[simp] theorem State.slotWrite_fcause (s : State) (i : Nat) (r : Slot) :
    (s.slotWrite i r).fcause = s.fcause := by simp [State.slotWrite]

@[simp] theorem State.slotWrite_fop (s : State) (i : Nat) (r : Slot) :
    (s.slotWrite i r).fop = s.fop := by simp [State.slotWrite]

@[simp] theorem State.slotWrite_inputs (s : State) (i : Nat) (r : Slot) :
    (s.slotWrite i r).inputs = s.inputs := by simp [State.slotWrite]

@[simp] theorem State.slotWrite_rsps (s : State) (i : Nat) (r : Slot) :
    (s.slotWrite i r).rsps = s.rsps := by simp [State.slotWrite]

/-! ## Reset -/

@[simp] theorem State.assertReset_cfg (s : State) :
    (s.assertReset).cfg = s.cfg := rfl

@[simp] theorem State.assertReset_h (s : State) :
    (s.assertReset).h = s.cfg.basis := rfl

@[simp] theorem State.assertReset_keybuf (s : State) :
    (s.assertReset).keybuf = [] := rfl

@[simp] theorem State.assertReset_klen (s : State) :
    (s.assertReset).klen = 0#16 := rfl

@[simp] theorem State.assertReset_slot0 (s : State) :
    (s.assertReset).slot0 = [] := rfl

@[simp] theorem State.assertReset_slot1 (s : State) :
    (s.assertReset).slot1 = [] := rfl

@[simp] theorem State.assertReset_bank (s : State) :
    (s.assertReset).bank = false := rfl

@[simp] theorem State.assertReset_cap (s : State) :
    (s.assertReset).cap = 0#32 := rfl

@[simp] theorem State.assertReset_size (s : State) :
    (s.assertReset).size = 0#32 := rfl

@[simp] theorem State.assertReset_icur (s : State) :
    (s.assertReset).icur = 0#32 := rfl

@[simp] theorem State.assertReset_tvalid (s : State) :
    (s.assertReset).tvalid = false := rfl

@[simp] theorem State.assertReset_itact (s : State) :
    (s.assertReset).itact = false := rfl

@[simp] theorem State.assertReset_fault (s : State) :
    (s.assertReset).fault = false := rfl

@[simp] theorem State.assertReset_fcause (s : State) :
    (s.assertReset).fcause = 0#8 := rfl

@[simp] theorem State.assertReset_fop (s : State) :
    (s.assertReset).fop = 0#8 := rfl

@[simp] theorem State.assertReset_inputs (s : State) :
    (s.assertReset).inputs = s.inputs := rfl

@[simp] theorem State.assertReset_rsps (s : State) :
    (s.assertReset).rsps = s.rsps := rfl

/-! ## The key buffer -/

@[simp] theorem State.pushKeyByte_cfg (b : Byte) (s : State) :
    (s.pushKeyByte b).cfg = s.cfg := rfl

@[simp] theorem State.pushKeyByte_h (b : Byte) (s : State) :
    (s.pushKeyByte b).h = s.h := rfl

@[simp] theorem State.pushKeyByte_keybuf (b : Byte) (s : State) :
    (s.pushKeyByte b).keybuf = Memory.write keyByteUnlisted s.keybuf s.klen.toNat b := rfl

@[simp] theorem State.pushKeyByte_klen (b : Byte) (s : State) :
    (s.pushKeyByte b).klen = s.klen + 1#16 := rfl

@[simp] theorem State.pushKeyByte_slot0 (b : Byte) (s : State) :
    (s.pushKeyByte b).slot0 = s.slot0 := rfl

@[simp] theorem State.pushKeyByte_slot1 (b : Byte) (s : State) :
    (s.pushKeyByte b).slot1 = s.slot1 := rfl

@[simp] theorem State.pushKeyByte_bank (b : Byte) (s : State) :
    (s.pushKeyByte b).bank = s.bank := rfl

@[simp] theorem State.pushKeyByte_cap (b : Byte) (s : State) :
    (s.pushKeyByte b).cap = s.cap := rfl

@[simp] theorem State.pushKeyByte_size (b : Byte) (s : State) :
    (s.pushKeyByte b).size = s.size := rfl

@[simp] theorem State.pushKeyByte_icur (b : Byte) (s : State) :
    (s.pushKeyByte b).icur = s.icur := rfl

@[simp] theorem State.pushKeyByte_tvalid (b : Byte) (s : State) :
    (s.pushKeyByte b).tvalid = s.tvalid := rfl

@[simp] theorem State.pushKeyByte_itact (b : Byte) (s : State) :
    (s.pushKeyByte b).itact = s.itact := rfl

@[simp] theorem State.pushKeyByte_fault (b : Byte) (s : State) :
    (s.pushKeyByte b).fault = s.fault := rfl

@[simp] theorem State.pushKeyByte_fcause (b : Byte) (s : State) :
    (s.pushKeyByte b).fcause = s.fcause := rfl

@[simp] theorem State.pushKeyByte_fop (b : Byte) (s : State) :
    (s.pushKeyByte b).fop = s.fop := rfl

@[simp] theorem State.pushKeyByte_inputs (b : Byte) (s : State) :
    (s.pushKeyByte b).inputs = s.inputs := rfl

@[simp] theorem State.pushKeyByte_rsps (b : Byte) (s : State) :
    (s.pushKeyByte b).rsps = s.rsps := rfl

/-! ## A key from a slot -/

@[simp] theorem State.loadKey_cfg (k : Key) (s : State) :
    (s.loadKey k).cfg = s.cfg := rfl

@[simp] theorem State.loadKey_h (k : Key) (s : State) :
    (s.loadKey k).h = s.h := rfl

@[simp] theorem State.loadKey_keybuf (k : Key) (s : State) :
    (s.loadKey k).keybuf = Memory.writeList keyByteUnlisted s.keybuf 0 k := rfl

@[simp] theorem State.loadKey_klen (k : Key) (s : State) :
    (s.loadKey k).klen = BitVec.ofNat 16 k.length := rfl

@[simp] theorem State.loadKey_slot0 (k : Key) (s : State) :
    (s.loadKey k).slot0 = s.slot0 := rfl

@[simp] theorem State.loadKey_slot1 (k : Key) (s : State) :
    (s.loadKey k).slot1 = s.slot1 := rfl

@[simp] theorem State.loadKey_bank (k : Key) (s : State) :
    (s.loadKey k).bank = s.bank := rfl

@[simp] theorem State.loadKey_cap (k : Key) (s : State) :
    (s.loadKey k).cap = s.cap := rfl

@[simp] theorem State.loadKey_size (k : Key) (s : State) :
    (s.loadKey k).size = s.size := rfl

@[simp] theorem State.loadKey_icur (k : Key) (s : State) :
    (s.loadKey k).icur = s.icur := rfl

@[simp] theorem State.loadKey_tvalid (k : Key) (s : State) :
    (s.loadKey k).tvalid = s.tvalid := rfl

@[simp] theorem State.loadKey_itact (k : Key) (s : State) :
    (s.loadKey k).itact = s.itact := rfl

@[simp] theorem State.loadKey_fault (k : Key) (s : State) :
    (s.loadKey k).fault = s.fault := rfl

@[simp] theorem State.loadKey_fcause (k : Key) (s : State) :
    (s.loadKey k).fcause = s.fcause := rfl

@[simp] theorem State.loadKey_fop (k : Key) (s : State) :
    (s.loadKey k).fop = s.fop := rfl

@[simp] theorem State.loadKey_inputs (k : Key) (s : State) :
    (s.loadKey k).inputs = s.inputs := rfl

@[simp] theorem State.loadKey_rsps (k : Key) (s : State) :
    (s.loadKey k).rsps = s.rsps := rfl

/-! ## The pair of an INSERT -/

@[simp] theorem State.storePair_cfg (v : Word) (s : State) :
    (s.storePair v).cfg = s.cfg := by simp [State.storePair]

@[simp] theorem State.storePair_h (v : Word) (s : State) :
    (s.storePair v).h = s.keyDigest := by simp [State.storePair]

@[simp] theorem State.storePair_keybuf (v : Word) (s : State) :
    (s.storePair v).keybuf = s.keybuf := by simp [State.storePair]

@[simp] theorem State.storePair_klen (v : Word) (s : State) :
    (s.storePair v).klen = s.klen := by simp [State.storePair]

@[simp] theorem State.storePair_bank (v : Word) (s : State) :
    (s.storePair v).bank = s.bank := by simp [State.storePair]

@[simp] theorem State.storePair_cap (v : Word) (s : State) :
    (s.storePair v).cap = s.cap := by simp [State.storePair]

@[simp] theorem State.storePair_size (v : Word) (s : State) :
    (s.storePair v).size = if s.insertFills then BitVec.ofNat 32 (s.size.toNat + 1) else s.size := by simp [State.storePair]

@[simp] theorem State.storePair_icur (v : Word) (s : State) :
    (s.storePair v).icur = s.icur := by simp [State.storePair]

@[simp] theorem State.storePair_tvalid (v : Word) (s : State) :
    (s.storePair v).tvalid = s.tvalid := by simp [State.storePair]

@[simp] theorem State.storePair_itact (v : Word) (s : State) :
    (s.storePair v).itact = false := by simp [State.storePair]

@[simp] theorem State.storePair_fault (v : Word) (s : State) :
    (s.storePair v).fault = s.fault := by simp [State.storePair]

@[simp] theorem State.storePair_fcause (v : Word) (s : State) :
    (s.storePair v).fcause = s.fcause := by simp [State.storePair]

@[simp] theorem State.storePair_fop (v : Word) (s : State) :
    (s.storePair v).fop = s.fop := by simp [State.storePair]

@[simp] theorem State.storePair_inputs (v : Word) (s : State) :
    (s.storePair v).inputs = s.inputs := by simp [State.storePair]

@[simp] theorem State.storePair_rsps (v : Word) (s : State) :
    (s.storePair v).rsps = s.rsps := by simp [State.storePair]

/-! ## The slot a REMOVE empties -/

@[simp] theorem State.clearHome_cfg (s : State) :
    (s.clearHome).cfg = s.cfg := by simp [State.clearHome]

@[simp] theorem State.clearHome_h (s : State) :
    (s.clearHome).h = s.keyDigest := by simp [State.clearHome]

@[simp] theorem State.clearHome_keybuf (s : State) :
    (s.clearHome).keybuf = s.keybuf := by simp [State.clearHome]

@[simp] theorem State.clearHome_klen (s : State) :
    (s.clearHome).klen = s.klen := by simp [State.clearHome]

@[simp] theorem State.clearHome_bank (s : State) :
    (s.clearHome).bank = s.bank := by simp [State.clearHome]

@[simp] theorem State.clearHome_cap (s : State) :
    (s.clearHome).cap = s.cap := by simp [State.clearHome]

@[simp] theorem State.clearHome_size (s : State) :
    (s.clearHome).size = s.size - 1#32 := by simp [State.clearHome]

@[simp] theorem State.clearHome_icur (s : State) :
    (s.clearHome).icur = s.icur := by simp [State.clearHome]

@[simp] theorem State.clearHome_tvalid (s : State) :
    (s.clearHome).tvalid = s.tvalid := by simp [State.clearHome]

@[simp] theorem State.clearHome_itact (s : State) :
    (s.clearHome).itact = false := by simp [State.clearHome]

@[simp] theorem State.clearHome_fault (s : State) :
    (s.clearHome).fault = s.fault := by simp [State.clearHome]

@[simp] theorem State.clearHome_fcause (s : State) :
    (s.clearHome).fcause = s.fcause := by simp [State.clearHome]

@[simp] theorem State.clearHome_fop (s : State) :
    (s.clearHome).fop = s.fop := by simp [State.clearHome]

@[simp] theorem State.clearHome_inputs (s : State) :
    (s.clearHome).inputs = s.inputs := by simp [State.clearHome]

@[simp] theorem State.clearHome_rsps (s : State) :
    (s.clearHome).rsps = s.rsps := by simp [State.clearHome]

/-! ## A resize -/

@[simp] theorem State.resize_cfg (s : State) :
    (s.resize).cfg = s.cfg := by simp [State.resize]

@[simp] theorem State.resize_h (s : State) :
    (s.resize).h = s.h := by simp [State.resize]

@[simp] theorem State.resize_keybuf (s : State) :
    (s.resize).keybuf = s.keybuf := by simp [State.resize]

@[simp] theorem State.resize_klen (s : State) :
    (s.resize).klen = s.klen := by simp [State.resize]

@[simp] theorem State.resize_bank (s : State) :
    (s.resize).bank = !s.bank := by simp [State.resize]

@[simp] theorem State.resize_cap (s : State) :
    (s.resize).cap = BitVec.ofNat 32 (newcap s.cap.toNat) := by simp [State.resize]

@[simp] theorem State.resize_size (s : State) :
    (s.resize).size = s.size := by simp [State.resize]

@[simp] theorem State.resize_icur (s : State) :
    (s.resize).icur = s.icur := by simp [State.resize]

@[simp] theorem State.resize_tvalid (s : State) :
    (s.resize).tvalid = s.tvalid := by simp [State.resize]

@[simp] theorem State.resize_itact (s : State) :
    (s.resize).itact = s.itact := by simp [State.resize]

@[simp] theorem State.resize_fault (s : State) :
    (s.resize).fault = s.fault := by simp [State.resize]

@[simp] theorem State.resize_fcause (s : State) :
    (s.resize).fcause = s.fcause := by simp [State.resize]

@[simp] theorem State.resize_fop (s : State) :
    (s.resize).fop = s.fop := by simp [State.resize]

@[simp] theorem State.resize_inputs (s : State) :
    (s.resize).inputs = s.inputs := by simp [State.resize]

@[simp] theorem State.resize_rsps (s : State) :
    (s.resize).rsps = s.rsps := by simp [State.resize]

/-! ## Banks and slots -/

@[simp] theorem State.bankMem_setBankMem (s : State) (b b' : Bool) (m : Memory Slot) :
    (s.setBankMem b m).bankMem b' = if b' = b then m else s.bankMem b' := by
  cases b <;> cases b' <;> rfl

theorem State.bankSlot_setBankMem (s : State) (b b' : Bool) (m : Memory Slot) (i : Nat) :
    (s.setBankMem b m).bankSlot b' i =
      if b' = b then Memory.read Slot.unlisted m i else s.bankSlot b' i := by
  rw [State.bankSlot, State.bankMem_setBankMem]
  split <;> rfl

/-- Two states with the same banks have the same slots. -/
theorem State.bankSlot_congr {s t : State} (h0 : t.slot0 = s.slot0) (h1 : t.slot1 = s.slot1) :
    t.bankSlot = s.bankSlot := by
  funext b i
  cases b <;> simp [State.bankSlot, State.bankMem, h0, h1]

theorem State.slotRead_congr {s t : State} (h0 : t.slot0 = s.slot0) (h1 : t.slot1 = s.slot1)
    (hb : t.bank = s.bank) : t.slotRead = s.slotRead := by
  funext i
  rw [State.slotRead, State.slotRead, State.bankSlot_congr h0 h1, hb]

/-- A response touches no slot. -/
@[simp] theorem State.told_bankSlot (s : State) (r : RspWord) : (s.told r).bankSlot = s.bankSlot :=
  State.bankSlot_congr rfl rfl

@[simp] theorem State.told_slotRead (s : State) (r : RspWord) : (s.told r).slotRead = s.slotRead :=
  State.slotRead_congr rfl rfl rfl

/-- A slot write changes the written slot of the current bank, and no other slot of either bank. -/
theorem State.bankSlot_slotWrite (s : State) (i : Nat) (r : Slot) (b : Bool) (j : Nat) :
    (s.slotWrite i r).bankSlot b j = if b = s.bank ∧ j = i then r else s.bankSlot b j := by
  rw [State.slotWrite, State.bankSlot_setBankMem]
  by_cases hb : b = s.bank
  · subst hb
    simp only [if_true, true_and]
    exact Memory.read_write ..
  · simp [hb]

/-- The key depends on the key buffer and its length only. -/
theorem State.key_congr {s t : State} (hk : t.keybuf = s.keybuf) (hl : t.klen = s.klen) :
    t.key = s.key := by
  simp [State.key, hl, State.keyByte, hk]

/-- The table's commands leave the key (41_keybuf R123). -/
@[simp] theorem State.key_storePair (v : Word) (s : State) : (s.storePair v).key = s.key :=
  State.key_congr (by simp) (by simp)

@[simp] theorem State.key_clearHome (s : State) : s.clearHome.key = s.key :=
  State.key_congr (by simp) (by simp)

@[simp] theorem State.key_resize (s : State) : s.resize.key = s.key :=
  State.key_congr (by simp) (by simp)

theorem State.length_key (s : State) : s.key.length = s.klen.toNat := by simp [State.key]

theorem State.getElem?_key (s : State) (i : Nat) :
    s.key[i]? = if i < s.klen.toNat then some (s.keyByte i) else none := by
  by_cases h : i < s.klen.toNat <;> simp [State.key, h]

end Sys2Proof.Machine
end

