-- ==== Sys2Proof/Laws/Response.lean ====
section
/-! SUPPORT. The response words as numbers, refusing and raising in the words of the statements, and the one
check every command begins with. -/

namespace Sys2Proof.Machine

/-- The bits of a concatenation as a number. -/
theorem toNat_append_eq {n m : Nat} (x : BitVec n) (y : BitVec m) :
    (x ++ y).toNat = x.toNat * 2 ^ m + y.toNat := by
  rw [BitVec.toNat_append, ← Nat.shiftLeft_add_eq_or_of_lt y.isLt, Nat.shiftLeft_eq]

/-- A response word as a number: the kind above the 64 data bits (30_encoding R74). -/
theorem Response.toNat_word (r : Response) :
    r.word.toNat = r.kind.toNat * 2 ^ 64 + r.payload.toNat := toNat_append_eq ..

theorem word_done : Response.done.word = doneWord := rfl

theorem word_absent : Response.absent.word = noneWord := rfl

theorem word_data (v : Word) : (Response.data v).word = dataWord v := by
  apply BitVec.eq_of_toNat_eq
  have := v.isLt
  rw [Response.toNat_word, dataWord, BitVec.toNat_ofNat]
  simp only [Response.kind, Response.payload, BitVec.toNat_ofNat]
  omega

/-- The fault record as a number (10_state R36). -/
theorem State.toNat_faultRecord (s : State) :
    s.faultRecord.toNat = s.fop.toNat * 2 ^ 8 + s.fcause.toNat := by
  have h1 := s.fop.isLt
  have h2 := s.fcause.isLt
  have h : (s.fop ++ s.fcause : BitVec 16).toNat = s.fop.toNat * 2 ^ 8 + s.fcause.toNat :=
    toNat_append_eq ..
  rw [State.faultRecord, BitVec.toNat_setWidth, h]
  omega

theorem word_fault (s : State) : (Response.fault s.faultRecord).word = faultWord s.fop s.fcause := by
  apply BitVec.eq_of_toNat_eq
  have h1 := s.fop.isLt
  have h2 := s.fcause.isLt
  rw [Response.toNat_word, faultWord, BitVec.toNat_ofNat]
  simp only [Response.kind, Response.payload, State.toNat_faultRecord, BitVec.toNat_ofNat]
  omega

theorem State.respond_done (s : State) : s.respond .done = s.told doneWord := rfl

theorem State.respond_absent (s : State) : s.respond .absent = s.told noneWord := rfl

theorem State.respond_data (s : State) (v : Word) : s.respond (.data v) = s.told (dataWord v) := by
  rw [State.respond, State.told, word_data]

/-- The refusal of R202, in numbers. -/
theorem State.refuse_eq (s : State) : s.refuse = s.refused := by
  rw [State.refuse, State.respond, word_fault, State.refused, State.told]

/-- Raising a cause (R200), in numbers. -/
theorem State.raise_eq (s : State) (c : Cause) (op : Byte) :
    s.raise c op = s.raised op c.code := by
  rw [State.raise, State.refuse_eq, State.refused, State.told, State.raised]

theorem State.unlessFaulted_of_fault {s : State} (h : s.fault = true) (run : State → State) :
    s.unlessFaulted run = s.refused := by
  rw [State.unlessFaulted, if_pos h, State.refuse_eq]

theorem State.unlessFaulted_of_not_fault {s : State} (h : s.fault = false) (run : State → State) :
    s.unlessFaulted run = run s := by
  rw [State.unlessFaulted, if_neg (by simp [h])]

/-- Every meaning answers a next state. -/
theorem exec_next (i : Instr) (s : State) : ∃ t, exec i s = .next t := by
  cases i <;> try exact ⟨_, rfl⟩
  simp only [exec, execRdreg]
  split <;> exact ⟨_, rfl⟩

/-- Every accepted word is answered with a next state. -/
theorem acceptCommand_next (w : CmdWord) (s : State) : ∃ t, acceptCommand w s = .next t := by
  rw [acceptCommand]
  split
  · exact exec_next ..
  · exact ⟨_, rfl⟩

/-- Nothing a step can do but answer a next state: an outcome is one. -/
theorem outcome_next {o : Host.Outcome State Fault Refusal} {t t' : State} (h : o = .next t)
    (h' : o = .next t') : t = t' := by
  rw [h] at h'
  exact Host.Outcome.next.inj h'

end Sys2Proof.Machine
end

