-- ==== Sys2Proof/Laws/Effect.lean ====
section
/-! SUPPORT. All a command can do, said once: `Effect s i t` lists the cases, guards included, in which `exec i s`
answers `t`, and `step_cases` those of a step. Later proofs cite these and do not unfold the meanings. -/

namespace Sys2Proof.Machine

/-- When the command `i` raises the cause `c` in a state that is not the fault state (60_exceptions R191). -/
def Raises (s : State) (i : Instr) : Cause → Prop
  | .illegalOpcode => False
  | .reservedBits => False
  | .badRegister => ∃ n, i = .rdreg n ∧ 0x0B < n.toNat
  | .keyOverflow => ∃ b, i = .kpush b ∧ s.klen = s.cfg.keyMax
  | .noTable => s.tvalid = false ∧
      ((∃ v, i = .insert v) ∨ i = .get ∨ i = .remove ∨ i = .itstart ∨ i = .itnext)
  | .iterInactive => i = .itnext ∧ s.tvalid = true ∧ s.itact = false
  | .capacityExhausted => ∃ v, i = .insert v ∧ s.tvalid = true ∧ s.insertExhausts = true

/-- What the command `i` can do in the state `s`. HABSORB's new digest and CONSTRUCT's new bank have names of
their own, so that no proof computes them by accident. -/
inductive Effect (s : State) : Instr → State → Prop where
  | refused {i : Instr} (hf : s.fault = true) (hi : ∀ n, i = .rdreg n → 0x0B < n.toNat) :
      Effect s i s.refused
  | raised {i : Instr} (hf : s.fault = false) (c : Cause) (hc : Raises s i c) :
      Effect s i (s.raised i.opcode c.code)
  | nop (hf : s.fault = false) : Effect s .nop (s.told doneWord)
  | rdreg (n : Byte) (r : RegName) (hr : RegName.ofNumber n = some r) :
      Effect s (.rdreg n) (s.told (dataWord (s.readReg r)))
  | hinit (hf : s.fault = false) : Effect s .hinit (State.told { s with h := s.cfg.basis } doneWord)
  | habsorb (b : Byte) (x : Word) (hx : x = fnvStep s.cfg s.h b) (hf : s.fault = false) :
      Effect s (.habsorb b) (State.told { s with h := x } doneWord)
  | hkey (hf : s.fault = false) :
      Effect s .hkey (State.told { s with h := s.keyDigest } (dataWord s.keyDigest))
  | kclr (hf : s.fault = false) : Effect s .kclr (State.told { s with klen := 0#16 } doneWord)
  | kpush (b : Byte) (hf : s.fault = false) (hk : s.klen ≠ s.cfg.keyMax) :
      Effect s (.kpush b) ((s.pushKeyByte b).told doneWord)
  | kread (x : BitVec 16) (hf : s.fault = false) (hx : x.toNat < s.klen.toNat) :
      Effect s (.kread x) (s.told (dataWord ((s.keyByte x.toNat).setWidth 64)))
  | kreadNone (x : BitVec 16) (hf : s.fault = false) (hx : s.klen.toNat ≤ x.toNat) :
      Effect s (.kread x) (s.told noneWord)
  | construct (m : Memory Slot) (hm : m = Memory.fill Slot.unlisted Slot.empty capInit s.slot0)
      (hf : s.fault = false) : Effect s .construct (State.told { s with
      bank := false, slot0 := m, cap := BitVec.ofNat 32 capInit, size := 0#32, icur := 0#32, tvalid := true,
      itact := false } doneWord)
  | insert (v : Word) (hf : s.fault = false) (ht : s.tvalid = true) (hg : s.insertGrows = false) :
      Effect s (.insert v) ((s.storePair v).told doneWord)
  | insertGrow (v : Word) (hf : s.fault = false) (ht : s.tvalid = true) (hg : s.insertGrows = true)
      (hc : newcap s.cap.toNat ≤ s.cfg.capMax.toNat) :
      Effect s (.insert v) ((s.storePair v).resize.told doneWord)
  | get (hf : s.fault = false) (ht : s.tvalid = true)
      (hm : (s.slotRead s.homeIndex).holds s.key = true) :
      Effect s .get (State.told { s with h := s.keyDigest } (dataWord (s.slotRead s.homeIndex).val))
  | getNone (hf : s.fault = false) (ht : s.tvalid = true)
      (hm : (s.slotRead s.homeIndex).holds s.key = false) :
      Effect s .get (State.told { s with h := s.keyDigest } noneWord)
  | remove (hf : s.fault = false) (ht : s.tvalid = true)
      (hm : (s.slotRead s.homeIndex).holds s.key = true) :
      Effect s .remove (s.clearHome.told (dataWord (s.slotRead s.homeIndex).val))
  | removeNone (hf : s.fault = false) (ht : s.tvalid = true)
      (hm : (s.slotRead s.homeIndex).holds s.key = false) :
      Effect s .remove (State.told { s with h := s.keyDigest } noneWord)
  | itstart (hf : s.fault = false) (ht : s.tvalid = true) :
      Effect s .itstart (State.told { s with icur := 0#32, itact := true } doneWord)
  | itnext (n : Nat) (hf : s.fault = false) (ht : s.tvalid = true) (ha : s.itact = true)
      (hn : s.nextOccupied = some n) :
      Effect s .itnext (State.told { s.loadKey (s.slotRead n).key with icur := BitVec.ofNat 32 (n + 1) }
        (dataWord (s.slotRead n).val))
  | itnextNone (hf : s.fault = false) (ht : s.tvalid = true) (ha : s.itact = true)
      (hn : s.nextOccupied = none) :
      Effect s .itnext (State.told { s with icur := s.cap } noneWord)

/-- A command that begins with the check of the fault state. -/
theorem effect_unlessFaulted {s t : State} {i : Instr} {run : State → State}
    (h : (Host.Outcome.next (s.unlessFaulted run) : Host.Outcome State Fault Refusal) = .next t)
    (hi : ∀ n, i = .rdreg n → 0x0B < n.toNat)
    (hrun : s.fault = false → Effect s i (run s)) : Effect s i t := by
  obtain rfl := Host.Outcome.next.inj h
  cases hf : s.fault with
  | true => rw [State.unlessFaulted_of_fault hf]; exact .refused hf hi
  | false => rw [State.unlessFaulted_of_not_fault hf]; exact hrun hf

/-- A fault raised by a meaning. -/
theorem effect_raise {s : State} {i : Instr} (hf : s.fault = false) {c : Cause} (hc : Raises s i c) :
    Effect s i (s.raise c i.opcode) := by
  rw [State.raise_eq]
  exact .raised hf c hc

/-- What `exec` answers is one of the effects. -/
theorem exec_effect {i : Instr} {s t : State} (h : exec i s = .next t) : Effect s i t := by
  cases i with
  | nop => exact effect_unlessFaulted h nofun fun hf => .nop hf
  | construct => exact effect_unlessFaulted h nofun fun hf => .construct _ rfl hf
  | rdreg n =>
    simp only [exec, execRdreg] at h
    split at h
    · obtain rfl := Host.Outcome.next.inj h
      rw [State.respond_data]
      exact .rdreg n _ ‹_›
    · have hn := (RegName.ofNumber_eq_none n).mp ‹_›
      exact effect_unlessFaulted h (fun m hm => by cases hm; exact hn)
        fun hf => effect_raise hf ⟨n, rfl, hn⟩
  | hinit => exact effect_unlessFaulted h nofun fun hf => .hinit hf
  | habsorb b => exact effect_unlessFaulted h nofun fun hf => .habsorb b _ rfl hf
  | hkey =>
    exact effect_unlessFaulted h nofun fun hf => by rw [State.respond_data]; exact .hkey hf
  | kclr => exact effect_unlessFaulted h nofun fun hf => .kclr hf
  | kpush b =>
    refine effect_unlessFaulted h nofun fun hf => ?_
    split
    · exact effect_raise hf ⟨b, rfl, ‹_›⟩
    · exact .kpush b hf ‹_›
  | kread x =>
    refine effect_unlessFaulted h nofun fun hf => ?_
    split
    · rw [State.respond_data]; exact .kread x hf ‹_›
    · exact .kreadNone x hf (Nat.not_lt.mp ‹_›)
  | insert v =>
    refine effect_unlessFaulted h nofun fun hf => ?_
    split
    · exact effect_raise hf ⟨by simp_all, .inl ⟨v, rfl⟩⟩
    · have ht : s.tvalid = true := by simp_all
      split
      · exact effect_raise hf ⟨v, rfl, ht, ‹_›⟩
      · split
        · refine .insertGrow v hf ht ‹_› ?_
          simp_all [State.insertExhausts]
        · exact .insert v hf ht (by simp_all)
  | get =>
    refine effect_unlessFaulted h nofun fun hf => ?_
    split
    · exact effect_raise hf ⟨by simp_all, by simp⟩
    · have ht : s.tvalid = true := by simp_all
      dsimp only
      split
      · rw [State.respond_data]; exact .get hf ht ‹_›
      · exact .getNone hf ht (by simp_all)
  | remove =>
    refine effect_unlessFaulted h nofun fun hf => ?_
    split
    · exact effect_raise hf ⟨by simp_all, by simp⟩
    · have ht : s.tvalid = true := by simp_all
      dsimp only
      split
      · rw [State.respond_data]; exact .remove hf ht ‹_›
      · exact .removeNone hf ht (by simp_all)
  | itstart =>
    refine effect_unlessFaulted h nofun fun hf => ?_
    split
    · exact effect_raise hf ⟨by simp_all, by simp⟩
    · exact .itstart hf (by simp_all)
  | itnext =>
    refine effect_unlessFaulted h nofun fun hf => ?_
    split
    · exact effect_raise hf ⟨by simp_all, by simp⟩
    · have ht : s.tvalid = true := by simp_all
      split
      · exact effect_raise hf ⟨rfl, ht, by simp_all⟩
      · have ha : s.itact = true := by simp_all
        split
        · rw [State.respond_data]; exact .itnext _ hf ht ha ‹_›
        · exact .itnextNone hf ht ha ‹_›

/-- All a step can do: idle, reset, refuse or reject a word, or run a command. -/
theorem step_cases {s t : State} (h : step s = .next t) :
    (s.inputs = [] ∧ t = s) ∨
    (∃ rest, (s.inputs = .rst :: rest ∨ ∃ w, s.inputs = .cmdThenRst w :: rest) ∧
      t = State.assertReset { s with inputs := rest }) ∨
    (∃ w rest, s.inputs = .cmd w :: rest ∧
      ((∃ e, decode w = .error e ∧
          (s.fault = true ∧ t = State.refused { s with inputs := rest } ∨
            s.fault = false ∧ t = State.raised { s with inputs := rest } (CmdWord.op w)
              (rejectCause e).code)) ∨
        ∃ i, decode w = .ok i ∧ exec i { s with inputs := rest } = .next t ∧
          Effect { s with inputs := rest } i t)) := by
  rw [step] at h
  split at h
  · exact .inl ⟨‹_›, (Host.Outcome.next.inj h).symm⟩
  · rename_i w rest hin
    refine .inr (.inr ⟨w, rest, hin, ?_⟩)
    rw [acceptCommand] at h
    split at h
    · exact .inr ⟨_, ‹_›, h, exec_effect h⟩
    · rename_i e he
      refine .inl ⟨e, he, ?_⟩
      obtain rfl := Host.Outcome.next.inj h
      by_cases hf : s.fault = true
      · exact .inl ⟨hf, State.unlessFaulted_of_fault (s := { s with inputs := rest }) hf _⟩
      · have hf := Bool.eq_false_of_not_eq_true hf
        exact .inr ⟨hf, (State.unlessFaulted_of_not_fault (s := { s with inputs := rest }) hf _).trans
          (State.raise_eq ..)⟩
  · exact .inr (.inl ⟨_, .inl ‹_›, (Host.Outcome.next.inj h).symm⟩)
  · exact .inr (.inl ⟨_, .inr ⟨_, ‹_›⟩, (Host.Outcome.next.inj h).symm⟩)

end Sys2Proof.Machine
end

