-- ==== Sys2Proof/Laws/Fnv.lean ====
section
/-! SUPPORT. The hash unit's arithmetic as numbers: the split multiply against the true product, the range of a
round, and the home index. -/

namespace Sys2Proof.Machine

/-- A word is its two halves (40_hash R100). -/
theorem hi_lo (w : Word) : w.toNat = hi w * 2 ^ 32 + lo w := by
  simp only [hi, lo]
  omega

/-- The split multiply as a product modulo `2^64` with the term `MUL_HH` adds (40_hash R101, R106). -/
theorem toNat_fnvMul (c : Config) (x : Word) :
    (fnvMul c x).toNat =
      (x.toNat * c.prime.toNat + (if c.mulHH then hi x * hi c.prime else 0) * 2 ^ 32) % 2 ^ 64 := by
  rw [hi_lo x, hi_lo c.prime, fnvMul]
  generalize hi x = a
  generalize lo x = b
  generalize hi c.prime = p
  generalize lo c.prime = q
  generalize (if c.mulHH then a * p else 0) = e
  have hprod : (a * 2 ^ 32 + b) * (p * 2 ^ 32 + q) + e * 2 ^ 32
      = (a * q + b * p + e) * 2 ^ 32 + b * q + a * p * 2 ^ 64 := by ring
  rw [hprod, Nat.add_mul_mod_self_right]
  generalize a * q + b * p + e = m
  generalize b * q = l
  simp only [BitVec.toNat_ofNat, Nat.shiftLeft_eq]
  omega

/-- The reduction as a number (40_hash R102). -/
theorem toNat_fnvReduce (m : Word) : (fnvReduce m).toNat = m.toNat % (2 ^ 64 - 1) := by
  rw [fnvReduce, BitVec.toNat_ofNat]
  omega

/-- A round never gives all ones (40_hash R107 (c)). -/
theorem toNat_fnvStep_lt (c : Config) (h : Word) (b : Byte) : (fnvStep c h b).toNat < 2 ^ 64 - 1 := by
  rw [fnvStep, toNat_fnvReduce]
  exact Nat.mod_lt _ (by decide)

theorem fnvHash_nil (c : Config) : fnvHash c [] = c.basis := rfl

/-- Absorbing goes on from a digest (40_hash R107 (d)), one byte. -/
theorem fnvHash_concat (c : Config) (k : Key) (b : Byte) :
    fnvHash c (k ++ [b]) = fnvStep c (fnvHash c k) b := by
  simp [fnvHash]

/-- A digest is all ones only as a basis (10_state R42 (h)). -/
theorem fnvHash_ne_allOnes {c : Config} (hb : c.basis ≠ BitVec.allOnes 64) (k : Key) :
    fnvHash c k ≠ BitVec.allOnes 64 := by
  rcases List.eq_nil_or_concat k with rfl | ⟨k', b, rfl⟩
  · exact hb
  · rw [List.concat_eq_append, fnvHash_concat]
    intro h
    have := toNat_fnvStep_lt c (fnvHash c k') b
    rw [h] at this
    exact absurd this (by decide)

/-- A home index is below the capacity (42_table R130). -/
theorem home_lt (cfg : Config) (d : Word) {c : Nat} (h : 0 < c) : home cfg d c < c :=
  Nat.mod_lt _ h

/-- The home index under the double capacity determines the one under the single (42_table R148). -/
theorem home_double (cfg : Config) (d : Word) (c : Nat) : home cfg d (2 * c) % c = home cfg d c := by
  rw [home, home, Nat.mod_mul_left_mod]

/-- The capacity grows (42_table R134). -/
theorem lt_newcap {c : Nat} (h : 1 ≤ c) : c < newcap c := by
  unfold newcap growthSwitch
  split <;> omega

/-- `newcap(c) >= (8 * c) div 5` for every `c` (42_table R150). -/
theorem newcap_ge (c : Nat) : 8 * c / 5 ≤ newcap c := by
  unfold newcap growthSwitch
  split <;> omega

end Sys2Proof.Machine
end

