-- ==== Sys2Proof/Laws/PerInstr.lean ====
section
/-! SUPPORT. The family `Wf`: the encoding of a command is a well-formed word with the command's opcode, for each
constructor of Instr. -/

namespace Sys2Proof.Laws.Wf

/-- The encoding of `i` is well formed and carries its opcode and operand. -/
def Statement (i : Instr) : Prop :=
  CmdWord.wf (encode i) = true ∧ CmdWord.op (encode i) = i.opcode ∧
    CmdWord.arg (encode i) = i.argField

/-- Well-formedness of a word with the opcode `op`, an argument below `2 ^ n`. -/
theorem wf_mk {op : Byte} {arg : Word}
    (h : [Format.Z, .B, .R, .X, .V].any (fun f => (opcodesOfFormat f).contains op.toNat &&
      [Format.Z, .B, .R, .X, .V].all fun g =>
        !((opcodesOfFormat g).contains op.toNat) || arg.toNat < 2 ^ operandBits g) = true) :
    CmdWord.wf (CmdWord.mk op arg) = true := by
  have ho : (CmdWord.mk op arg).toNat / 2 ^ 64 = op.toNat := by
    rw [← CmdWord.toNat_op, CmdWord.op_mk]
  have ha : (CmdWord.mk op arg).toNat % 2 ^ 64 = arg.toNat := by
    rw [← CmdWord.toNat_arg, CmdWord.arg_mk]
  simp only [CmdWord.wf, CmdWord.opAssigned, CmdWord.reservedZero, CmdWord.hasFormat, ho, ha]
  rw [List.any_eq_true] at h
  obtain ⟨f, hf, h⟩ := h
  rw [Bool.and_eq_true] at h
  rw [Bool.and_eq_true]
  exact ⟨List.any_eq_true.mpr ⟨f, hf, h.1⟩, h.2⟩

theorem of_wf {i : Instr} (h : CmdWord.wf (CmdWord.mk i.opcode i.argField) = true) : Statement i :=
  ⟨h, CmdWord.op_mk .., CmdWord.arg_mk ..⟩

theorem toNat_byte (b : Byte) : (b.setWidth 64).toNat < 2 ^ 8 := by
  rw [BitVec.toNat_setWidth]
  omega

theorem nop : Statement .nop := of_wf (by decide)
theorem construct : Statement .construct := of_wf (by decide)
theorem rdreg (regno : Byte) : Statement (.rdreg regno) :=
  of_wf (wf_mk (by
    have := toNat_byte regno
    simp [Instr.opcode, Instr.argField, opcodesOfFormat, operandBits]; omega))
theorem hinit : Statement .hinit := of_wf (by decide)
theorem habsorb (imm8 : Byte) : Statement (.habsorb imm8) :=
  of_wf (wf_mk (by
    have := toNat_byte imm8
    simp [Instr.opcode, Instr.argField, opcodesOfFormat, operandBits]; omega))
theorem hkey : Statement .hkey := of_wf (by decide)
theorem kclr : Statement .kclr := of_wf (by decide)
theorem kpush (imm8 : Byte) : Statement (.kpush imm8) :=
  of_wf (wf_mk (by
    have := toNat_byte imm8
    simp [Instr.opcode, Instr.argField, opcodesOfFormat, operandBits]; omega))
theorem kread (idx : BitVec 16) : Statement (.kread idx) :=
  of_wf (wf_mk (by
    have := idx.isLt
    simp [Instr.opcode, Instr.argField, opcodesOfFormat, operandBits]; omega))
theorem insert (val : Word) : Statement (.insert val) :=
  of_wf (wf_mk (by
    simp [Instr.opcode, Instr.argField, opcodesOfFormat, operandBits]
    exact decide_eq_true val.isLt))
theorem get : Statement .get := of_wf (by decide)
theorem remove : Statement .remove := of_wf (by decide)
theorem itstart : Statement .itstart := of_wf (by decide)
theorem itnext : Statement .itnext := of_wf (by decide)

end Sys2Proof.Laws.Wf
end

