-- ==== Sys2Proof/Laws/Run.lean ====
section
/-! SUPPORT. Runs: one step of a run, a run in two parts, and the step that a list of commands as inputs takes. -/

namespace Sys2Proof.Machine

/-- A run begins with one step. -/
theorem run_succ {s t : State} (h : step s = .next t) (n : Nat) :
    Host.Core.run Sys2Proof.core (n + 1) s = Host.Core.run Sys2Proof.core n t := by
  have gen : ∀ (M : Host.Core) {s t : M.State}, M.step s = .next t → ∀ n, M.run (n + 1) s = M.run n t := by
    intro M s t h n
    simp only [Host.Core.run, h]
  exact gen Sys2Proof.core h n

/-- A run of `m + n` steps is a run of `m` steps and then one of `n`. -/
theorem run_add {s t : State} {m : Nat} (h : Host.Core.run Sys2Proof.core m s = .next t) (n : Nat) :
    Host.Core.run Sys2Proof.core (m + n) s = Host.Core.run Sys2Proof.core n t := by
  have gen : ∀ (M : Host.Core) (m : Nat) {s t : M.State}, M.run m s = .next t →
      M.run (m + n) s = M.run n t := by
    intro M m
    induction m with
    | zero =>
      intro s t h
      obtain rfl := Host.Outcome.next.inj h
      rw [Nat.zero_add]
    | succ m ih =>
      intro s t h
      rw [Nat.add_right_comm]
      simp only [Host.Core.run] at h ⊢
      split at h
      · exact ih h
      · cases h
      · cases h
  exact gen Sys2Proof.core m h

theorem inputsOf_append (is js : List Instr) : inputsOf (is ++ js) = inputsOf is ++ inputsOf js :=
  List.map_append ..

/-- The step on the first of a list of commands, for a command whose encoding decodes. -/
theorem step_inputsOf {s : State} {i : Instr} {is : List Instr} {rest : List HostInput}
    (hd : decode (encode i) = .ok i) (h : s.inputs = inputsOf (i :: is) ++ rest) :
    step s = exec i { s with inputs := inputsOf is ++ rest } := by
  rw [step, h]
  show acceptCommand (encode i) _ = _
  rw [acceptCommand, hd]
  rfl

end Sys2Proof.Machine
end

