-- ==== Sys2Proof/Laws/Table.lean ====
section
/-! SUPPORT. The table's operations as functions on slots: the pair of an INSERT, the slot a REMOVE empties, the
rehash and the resize, the key buffer's two writes, and the iterator's scan. -/

namespace Sys2Proof.Machine

theorem State.storePair_bankMem (v : Word) (s : State) (b : Bool) :
    (s.storePair v).bankMem b =
      if b = s.bank then Memory.write Slot.unlisted (s.bankMem s.bank) s.homeIndex
        { occ := true, key := s.key, val := v } else s.bankMem b :=
  (show (s.storePair v).bankMem b = (s.slotWrite s.homeIndex _).bankMem b by cases b <;> rfl).trans
    (State.bankMem_setBankMem ..)

theorem State.storePair_bankSlot (v : Word) (s : State) (b : Bool) (i : Nat) :
    (s.storePair v).bankSlot b i =
      if b = s.bank ∧ i = s.homeIndex then { occ := true, key := s.key, val := v }
      else s.bankSlot b i :=
  (congrFun (congrFun (State.bankSlot_congr rfl rfl) b) i).trans (State.bankSlot_slotWrite ..)

theorem State.storePair_slotRead (v : Word) (s : State) (i : Nat) :
    (s.storePair v).slotRead i =
      if i = s.homeIndex then { occ := true, key := s.key, val := v } else s.slotRead i := by
  rw [State.slotRead, State.storePair_bank, State.storePair_bankSlot]
  simp [State.slotRead]

/-- The pair of an INSERT as a record update: the two banks and the fields it writes. -/
theorem State.storePair_eq (v : Word) (s : State) :
    s.storePair v = { s with
      slot0 := (s.storePair v).slot0, slot1 := (s.storePair v).slot1, h := s.keyDigest, itact := false,
      size := if s.insertFills then BitVec.ofNat 32 (s.size.toNat + 1) else s.size } := by
  obtain ⟨_, _, _, _, _, _, _ | _, _, _, _, _, _, _, _, _, _, _⟩ := s <;> rfl

theorem State.clearHome_bankMem (s : State) (b : Bool) :
    s.clearHome.bankMem b =
      if b = s.bank then Memory.write Slot.unlisted (s.bankMem s.bank) s.homeIndex Slot.empty
      else s.bankMem b :=
  (show s.clearHome.bankMem b = (s.slotWrite s.homeIndex _).bankMem b by cases b <;> rfl).trans
    (State.bankMem_setBankMem ..)

theorem State.clearHome_bankSlot (s : State) (b : Bool) (i : Nat) :
    s.clearHome.bankSlot b i =
      if b = s.bank ∧ i = s.homeIndex then Slot.empty else s.bankSlot b i :=
  (congrFun (congrFun (State.bankSlot_congr rfl rfl) b) i).trans (State.bankSlot_slotWrite ..)

theorem State.clearHome_slotRead (s : State) (i : Nat) :
    s.clearHome.slotRead i = if i = s.homeIndex then Slot.empty else s.slotRead i := by
  rw [State.slotRead, State.clearHome_bank, State.clearHome_bankSlot]
  simp [State.slotRead]

/-- The slot a REMOVE empties as a record update. -/
theorem State.clearHome_eq (s : State) :
    s.clearHome = { s with
      slot0 := s.clearHome.slot0, slot1 := s.clearHome.slot1, h := s.keyDigest, itact := false,
      size := s.size - 1#32 } := by
  obtain ⟨_, _, _, _, _, _, _ | _, _, _, _, _, _, _, _, _, _, _⟩ := s <;> rfl

/-! ## The rehash -/

/-- One placement, as slots: an occupied record replaces what is at its new home, nothing else changes. -/
theorem read_placeRecord (cfg : Config) (nc : Nat) (m : Memory Slot) (r : Slot) (j : Nat) :
    Memory.read Slot.unlisted (placeRecord cfg nc m r) j =
      if r.occ = true ∧ home cfg (fnvHash cfg r.key) nc = j then r
      else Memory.read Slot.unlisted m j := by
  rw [placeRecord]
  by_cases ho : r.occ = true
  · rw [if_pos ho, Memory.read_write]
    by_cases hj : j = home cfg (fnvHash cfg r.key) nc
    · simp [ho, hj]
    · simp [hj, show ¬ home cfg (fnvHash cfg r.key) nc = j from fun h => hj h.symm]
  · simp [ho]

/-- The placements of the first `n` old records leave, at each index, the last of them whose home it is. -/
theorem read_foldl_placeRecord (cfg : Config) (nc : Nat) (old : Nat → Slot) (n : Nat)
    (m : Memory Slot) (j : Nat) :
    Memory.read Slot.unlisted ((List.range n).foldl (fun m i => placeRecord cfg nc m (old i)) m) j =
      match (List.range n).reverse.find? fun i =>
          (old i).occ && decide (home cfg (fnvHash cfg (old i).key) nc = j) with
      | some i => old i
      | none => Memory.read Slot.unlisted m j := by
  induction n with
  | zero => simp
  | succ n ih =>
    rw [List.range_succ, List.foldl_append, List.foldl_cons, List.foldl_nil, read_placeRecord, ih,
      List.reverse_append, List.reverse_singleton, List.singleton_append, List.find?_cons]
    by_cases h : (old n).occ = true ∧ home cfg (fnvHash cfg (old n).key) nc = j
    · simp [h]
    · rw [if_neg h]
      have : ((old n).occ && decide (home cfg (fnvHash cfg (old n).key) nc = j)) = false := by
        simpa using h
      rw [this]

/-- The new sequence of a resize, as slots: below `nc` the survivors, above it the bank as it was
(42_table R146, R147). -/
theorem State.read_rehash (s : State) (nc : Nat) (m : Memory Slot) (hnc : 0 < nc) (j : Nat) :
    Memory.read Slot.unlisted (s.rehash nc m) j =
      if j < nc then survivor s.cfg s.slotRead s.cap.toNat nc j else Memory.read Slot.unlisted m j := by
  rw [State.rehash, read_foldl_placeRecord, survivor]
  by_cases hj : j < nc
  · rw [if_pos hj, Memory.read_fill, if_pos hj] <;> rfl
  · rw [if_neg hj, Memory.read_fill, if_neg hj]
    have : (List.range s.cap.toNat).reverse.find? (fun i =>
        (s.slotRead i).occ && decide (home s.cfg (fnvHash s.cfg (s.slotRead i).key) nc = j)) = none := by
      rw [List.find?_eq_none]
      intro i _ h
      simp only [Bool.and_eq_true, decide_eq_true_eq] at h
      have := home_lt s.cfg (fnvHash s.cfg (s.slotRead i).key) hnc
      omega
    rw [this]

/-- What survives at `j` is a record whose new home is `j`, or `EMPTY`. -/
theorem survivor_cases (cfg : Config) (old : Nat → Slot) (c nc j : Nat) :
    (survivor cfg old c nc j = Slot.empty ∧
      ∀ i, i < c → (old i).occ = true → home cfg (fnvHash cfg (old i).key) nc ≠ j) ∨
    ∃ i, i < c ∧ survivor cfg old c nc j = old i ∧ (old i).occ = true ∧
      home cfg (fnvHash cfg (old i).key) nc = j ∧
      ∀ i', i < i' → i' < c → (old i').occ = true → home cfg (fnvHash cfg (old i').key) nc ≠ j := by
  induction c with
  | zero => exact .inl ⟨by simp [survivor], by simp⟩
  | succ c ih =>
    have hstep : survivor cfg old (c + 1) nc j =
        if (old c).occ = true ∧ home cfg (fnvHash cfg (old c).key) nc = j then old c
        else survivor cfg old c nc j := by
      rw [survivor, List.range_succ, List.reverse_append, List.reverse_singleton,
        List.singleton_append, List.find?_cons]
      by_cases h : (old c).occ = true ∧ home cfg (fnvHash cfg (old c).key) nc = j
      · simp [h]
      · rw [if_neg h]
        have : ((old c).occ && decide (home cfg (fnvHash cfg (old c).key) nc = j)) = false := by
          simpa using h
        rw [this]
        rfl
    by_cases h : (old c).occ = true ∧ home cfg (fnvHash cfg (old c).key) nc = j
    · exact .inr ⟨c, by omega, by rw [hstep, if_pos h], h.1, h.2, fun i' h1 h2 => by omega⟩
    · rw [hstep, if_neg h]
      rcases ih with ⟨he, hn⟩ | ⟨i, hi, he, ho, hh, hl⟩
      · refine .inl ⟨he, fun i hi ho hh => ?_⟩
        by_cases hic : i = c
        · subst hic; exact h ⟨ho, hh⟩
        · exact hn i (by omega) ho hh
      · refine .inr ⟨i, by omega, he, ho, hh, fun i' h1 h2 ho' hh' => ?_⟩
        by_cases hic : i' = c
        · subst hic; exact h ⟨ho', hh'⟩
        · exact hl i' h1 (by omega) ho' hh'

/-- The rehash reads the old slots below the old capacity only (20_memory R54). -/
theorem survivor_congr (cfg : Config) {old old' : Nat → Slot} {c : Nat}
    (h : ∀ i, i < c → old i = old' i) (nc j : Nat) :
    survivor cfg old c nc j = survivor cfg old' c nc j := by
  induction c with
  | zero => rfl
  | succ c ih =>
    have hs : ∀ o : Nat → Slot, survivor cfg o (c + 1) nc j =
        if ((o c).occ && decide (home cfg (fnvHash cfg (o c).key) nc = j)) = true then o c
        else survivor cfg o c nc j := by
      intro o
      rw [survivor, List.range_succ, List.reverse_append, List.reverse_singleton,
        List.singleton_append, List.find?_cons]
      by_cases ho : ((o c).occ && decide (home cfg (fnvHash cfg (o c).key) nc = j)) = true
      · simp [ho]
      · rw [if_neg ho, Bool.eq_false_of_not_eq_true ho]
        rfl
    rw [hs, hs, h c (Nat.lt_succ_self c), ih fun i hi => h i (Nat.lt_succ_of_lt hi)]

/-- A resize as slots: the current bank's old slots stay, the other bank holds the new sequence. -/
theorem State.resize_bankMem (s : State) (b : Bool) :
    s.resize.bankMem b =
      if b = !s.bank then s.rehash (newcap s.cap.toNat) (s.bankMem (!s.bank)) else s.bankMem b :=
  (show s.resize.bankMem b = (s.setBankMem (!s.bank) _).bankMem b by cases b <;> rfl).trans
    (State.bankMem_setBankMem ..)

/-- A resize as a record update. -/
theorem State.resize_eq (s : State) :
    s.resize = { s with
      slot0 := s.resize.slot0, slot1 := s.resize.slot1, bank := !s.bank,
      cap := BitVec.ofNat 32 (newcap s.cap.toNat) } := by
  obtain ⟨_, _, _, _, _, _, _ | _, _, _, _, _, _, _, _, _, _, _⟩ := s <;> rfl

theorem State.resize_slotRead (s : State) (j : Nat) :
    s.resize.slotRead j =
      if j < newcap s.cap.toNat then survivor s.cfg s.slotRead s.cap.toNat (newcap s.cap.toNat) j
      else s.bankSlot (!s.bank) j := by
  rw [State.slotRead, State.bankSlot, State.resize_bank, State.resize_bankMem, if_pos rfl]
  rcases Nat.eq_zero_or_pos s.cap.toNat with h | h
  · rw [State.rehash, h]
    rfl
  · rw [State.read_rehash s _ _ (h.trans (lt_newcap h))]
    rfl

/-- The rehash keeps the canonical form and the range of indices. -/
theorem State.rehash_wf (s : State) (nc : Nat) {m : Memory Slot}
    (hm : Memory.wf Slot.unlisted m = true) : Memory.wf Slot.unlisted (s.rehash nc m) = true := by
  rw [State.rehash]
  generalize s.cap.toNat = n
  induction n with
  | zero => exact Memory.fill_wf _ _ nc hm
  | succ n ih =>
    rw [List.range_succ, List.foldl_append, List.foldl_cons, List.foldl_nil, placeRecord]
    split
    · exact Memory.write_wf _ _ _ ih
    · exact ih

theorem State.rehash_below (s : State) {nc n : Nat} (h0 : 0 < nc) (hn : nc ≤ n) {m : Memory Slot}
    (hm : Memory.below n m) : Memory.below n (s.rehash nc m) := by
  rw [State.rehash]
  generalize s.cap.toNat = c
  induction c with
  | zero => exact Memory.fill_below _ hn _ hm
  | succ c ih =>
    rw [List.range_succ, List.foldl_append, List.foldl_cons, List.foldl_nil, placeRecord]
    split
    · exact Memory.write_below _ ((home_lt _ _ h0).trans_le hn) _ ih
    · exact ih

/-! ## The conditions of INSERT and the answer of GET -/

/-- When an INSERT resizes (42_table R133, R140). -/
theorem State.insertGrows_iff (s : State) :
    s.insertGrows = true ↔
      (s.slotRead s.homeIndex).occ = false ∧ 3 * s.cap.toNat < 4 * (s.size.toNat + 1) := by
  rw [State.insertGrows, State.insertFills, Bool.and_eq_true, Bool.not_eq_true']
  exact and_congr_right fun _ => decide_eq_true_iff

/-- When an INSERT raises CapacityExhausted (42_table R143). -/
theorem State.insertExhausts_iff (s : State) :
    s.insertExhausts = true ↔
      (s.slotRead s.homeIndex).occ = false ∧ 3 * s.cap.toNat < 4 * (s.size.toNat + 1) ∧
        s.cfg.capMax.toNat < newcap s.cap.toNat := by
  rw [State.insertExhausts, Bool.and_eq_true, State.insertGrows_iff, decide_eq_true_iff, and_assoc]

/-- The check of GET and REMOVE is what the table answers for `KEY` (42_table R152, R155). -/
theorem State.lookup_key (s : State) :
    s.lookup s.key =
      if (s.slotRead s.homeIndex).holds s.key = true then some (s.slotRead s.homeIndex).val else none := by
  simp only [Slot.holds, Bool.and_eq_true, decide_eq_true_iff]
  rfl

/-! ## The key buffer -/

/-- KPUSH's write appends to the key while `KLEN` does not wrap (41_keybuf R121). -/
theorem State.key_pushKeyByte (s : State) (b : Byte) (h : s.klen.toNat + 1 < 2 ^ 16) :
    (s.pushKeyByte b).key = s.key ++ [b] := by
  have hl : (s.klen + 1#16).toNat = s.klen.toNat + 1 := by
    rw [BitVec.toNat_add, BitVec.toNat_ofNat]
    omega
  rw [State.key, State.pushKeyByte_klen, hl, List.range_succ, List.map_append, State.key]
  congr 1
  · refine List.map_congr_left fun i hi => ?_
    have hi := List.mem_range.mp hi
    rw [State.keyByte, State.pushKeyByte_keybuf, Memory.read_write, if_neg (by omega)]
    rfl
  · simp [State.keyByte, Memory.read_write]

/-- The bytes after a key has been loaded: the key, then what was there (43_iterate R172). -/
theorem State.keyByte_loadKey (s : State) (k : Key) (i : Nat) :
    (s.loadKey k).keyByte i = (k[i]?).getD (s.keyByte i) := by
  rw [State.keyByte, State.loadKey_keybuf, Memory.read_writeList]
  simp [State.keyByte]

theorem State.key_loadKey (s : State) (k : Key) (h : k.length < 2 ^ 16) : (s.loadKey k).key = k := by
  have hl : (BitVec.ofNat 16 k.length).toNat = k.length := by
    rw [BitVec.toNat_ofNat]
    exact Nat.mod_eq_of_lt h
  apply List.ext_getElem?
  intro i
  rw [State.getElem?_key, State.loadKey_klen, hl]
  split
  · rw [State.keyByte_loadKey, List.getElem?_eq_getElem ‹_›]
    rfl
  · rw [List.getElem?_eq_none (by omega)]

/-! ## The iterator's scan -/

/-- The scan finds the first occupied slot from `ICUR` up (43_iterate R172). -/
theorem State.nextOccupied_eq_some {s : State} {i : Nat} :
    s.nextOccupied = some i ↔
      s.icur.toNat ≤ i ∧ i < s.cap.toNat ∧ (s.slotRead i).occ = true ∧
        ∀ j, s.icur.toNat ≤ j → j < i → (s.slotRead j).occ = false := by
  rw [State.nextOccupied, List.find?_range'_eq_some]
  constructor
  · rintro ⟨h1, h2, h3⟩
    have := List.mem_range'_1.mp h2
    exact ⟨this.1, by omega, h1, fun j hj hji => by simpa using h3 j hj hji⟩
  · rintro ⟨h1, h2, h3, h4⟩
    exact ⟨h3, List.mem_range'_1.mpr ⟨h1, by omega⟩, fun j hj hji => by simpa using h4 j hj hji⟩

theorem State.nextOccupied_eq_none {s : State} :
    s.nextOccupied = none ↔
      ∀ j, s.icur.toNat ≤ j → j < s.cap.toNat → (s.slotRead j).occ = false := by
  rw [State.nextOccupied, List.find?_eq_none]
  constructor
  · intro h j hj hjc
    simpa using h j (List.mem_range'_1.mpr ⟨hj, by omega⟩)
  · intro h j hj
    have := List.mem_range'_1.mp hj
    simpa using h j this.1 (by omega)

end Sys2Proof.Machine
end

