-- ==== Sys2Proof/Tests/Slice0.lean ====
section
/-! SUPPORT. Tests of one step or one function each, with results from 95_test_vectors or from the rules by hand,
and a witness for the hypotheses of every statement that has some. -/

namespace Sys2Proof.Tests

open Sys2Proof Sys2Proof.Machine

-- Each `decide +kernel` waits for the theorems before it: one at a time needs far fewer threads at once.
set_option Elab.async false

/-! ## Small states -/

/-- After reset, with the key `k`. -/
def keyed (k : Key) : State := State.reset.loadKey k

/-- A table of 127 slots that holds `rows` and counts `n`, with the key `k`. -/
def table (k : Key) (rows : Memory Slot) (n : Nat) : State :=
  { keyed k with tvalid := true, cap := 127#32, slot0 := rows, size := BitVec.ofNat 32 n }

/-- An empty table. -/
def fresh (k : Key) : State := table k [] 0

/-- A table that holds "a" → 1 in its home slot 42 (95_test_vectors 2.4). -/
def oneRow : Memory Slot := [(42, { occ := true, key := [0x61#8], val := 1#64 })]

/-- After reset and a GET: the fault state with the record `0x3105` (95_test_vectors 5.4). -/
def faulted : State := { State.reset with fault := true, fcause := 5#8, fop := 0x31#8 }

/-- `s` with the host presenting `w` next. -/
def given (w : CmdWord) (s : State) : State := { s with inputs := [.cmd w] }

/-- The state an outcome leaves. -/
def after (o : Host.Outcome State Fault Refusal) : State :=
  match o with
  | .next s => s
  | .fault _ => State.reset
  | .refused _ => State.reset

/-- The last response after a command. -/
def answer (i : Instr) (s : State) : Option RspWord := (after (exec i s)).rsps.getLast?

/-- The last response after a step on a command word. -/
def answerWord (w : CmdWord) (s : State) : Option RspWord := (after (step (given w s))).rsps.getLast?

/-! ## WellFormed: an ill-formed term for each check -/

/-- `KEY_MAX` below 1 (00_scope R8). -/
theorem test_wf_key_max_zero : Config.wf { Config.default with keyMax := 0#16 } = false := by decide

/-- `CAP_MAX` below 127 (R8). -/
theorem test_wf_cap_max_126 : Config.wf { Config.default with capMax := 126#32 } = false := by decide

theorem test_wf_smallest :
    Config.wf { Config.default with keyMax := 1#16, capMax := 127#32 } = true := by decide

/-- The opcode set aside for RESIZE is unassigned (30_encoding R76). -/
theorem test_wf_unassigned : CmdWord.opAssigned 0x330000000000000000#72 = false ∧
    CmdWord.wf 0x330000000000000000#72 = false := by decide

/-- Reserved bits of formats Z, B, R and X (R77); format V has none. -/
theorem test_wf_reserved_z : CmdWord.wf 0x318000000000000000#72 = false := by decide
theorem test_wf_reserved_b : CmdWord.wf 0x210000000000000100#72 = false := by decide
theorem test_wf_reserved_r : CmdWord.wf 0x020000000000000100#72 = false := by decide
theorem test_wf_reserved_x : CmdWord.wf 0x220000000000010000#72 = false := by decide
theorem test_wf_value_is_whole : CmdWord.wf 0x30FFFFFFFFFFFFFFFF#72 = true := by decide

/-! ## Decoding: words from 95_test_vectors and the tables of R71 and R73 -/

theorem test_decode_nop : decode 0x000000000000000000#72 = .ok .nop := by decide
theorem test_decode_construct : decode 0x010000000000000000#72 = .ok .construct := by decide
theorem test_decode_rdreg : decode 0x02000000000000000C#72 = .ok (.rdreg 0x0C#8) := by decide
theorem test_decode_hinit : decode 0x100000000000000000#72 = .ok .hinit := by decide
theorem test_decode_habsorb : decode 0x11000000000000006C#72 = .ok (.habsorb 0x6C#8) := by decide
theorem test_decode_hkey : decode 0x120000000000000000#72 = .ok .hkey := by decide
theorem test_decode_kclr : decode 0x200000000000000000#72 = .ok .kclr := by decide
theorem test_decode_kpush : decode 0x21000000000000003A#72 = .ok (.kpush 0x3A#8) := by decide
theorem test_decode_kread : decode 0x22000000000000FF00#72 = .ok (.kread 0xFF00#16) := by decide
theorem test_decode_insert : decode 0x30FEDCBA9876543210#72 = .ok (.insert 0xFEDCBA9876543210#64) := by
  decide
theorem test_decode_get : decode 0x310000000000000000#72 = .ok .get := by decide
theorem test_decode_remove : decode 0x320000000000000000#72 = .ok .remove := by decide
theorem test_decode_itstart : decode 0x400000000000000000#72 = .ok .itstart := by decide
theorem test_decode_itnext : decode 0x410000000000000000#72 = .ok .itnext := by decide

/-- 95_test_vectors 5.3. -/
theorem test_decode_illegal : decode 0x030000000000000000#72 = .error .illegalOpcode ∧
    decode 0xFF0000000000000005#72 = .error .illegalOpcode := by decide
theorem test_decode_reserved : decode 0x310000000000000001#72 = .error .reservedBits ∧
    decode 0x1100000000000001FF#72 = .error .reservedBits := by decide

theorem test_encode_insert : encode (.insert 0x1060#64) = 0x300000000000001060#72 := by decide

/-- The bits above `nbits` are 0. -/
theorem test_table_word : decodeTableWord 72 0x300000000000001060 = some (.insert 0x1060#64) ∧
    decodeTableWord 72 0x330000000000000000 = none ∧ decodeTableWord 8 0x100 = some .nop := by decide

/-! ## Assembler text (30_encoding R80, R81) -/

theorem test_asm_kpush_hex : asmLine "KPUSH 0x61" = .cmd (.kpush 0x61#8) := by decide
theorem test_asm_kpush_char : asmLine "KPUSH 'a'" = .cmd (.kpush 0x61#8) := by decide
theorem test_asm_rdreg_name : asmLine "RDREG SIZE" = .cmd (.rdreg 0x04#8) := by decide
theorem test_asm_comment : asmLine "GET ; a lookup" = .cmd .get := by decide
theorem test_asm_put :
    asmLine "PUT \"ab\", 0x10" = .pseudo (.put [0x61#8, 0x62#8] 0x10#64) := by decide
theorem test_asm_list : asmLine "KEY [0x45, 7]" = .pseudo (.key [0x45#8, 7#8]) := by decide
/-- What entry 12 settles of `;`: a byte inside a string literal, a comment after it. -/
theorem test_asm_string_semicolon : asmLine "KEY \"a;\"; c" = .pseudo (.key [0x61#8, 0x3B#8]) := by
  decide
/-- What entry 12 settles of a list: empty brackets, a blank inside a numeral, a trailing comma. -/
theorem test_asm_list_edges : asmLine "KEY [ ]" = .pseudo (.key []) ∧ asmLine "KEY [1 2]" = .bad ∧
    asmLine "KEY [1,]" = .bad := by decide
theorem test_asm_bad : asmLine "insert 5" = .bad := by decide
theorem test_expand_lookup :
    expandPseudo (.lookup [0x3A#8]) = [.kclr, .kpush 0x3A#8, .get] := by decide

/-! ## The hash unit (95_test_vectors 2) -/

/-- Section 2.1, round 2, under both values of `MUL_HH`. -/
theorem test_mul_hh : fnvMul Config.default 0x1C9DA4DB639FDDCE#64 = 0xDD61C9CA48A5E50A#64 ∧
    fnvMul { Config.default with mulHH := false } 0x1C9DA4DB639FDDCE#64 = 0x3FBCEECA48A5E50A#64 := by
  decide +kernel

/-- Section 2.2, the one case where the reduction acts. -/
theorem test_reduce : fnvStep Config.default 0xD4A3F7A850096AC4#64 0x41#8 = 0#64 ∧
    fnvReduce 0xFFFFFFFFFFFFFFFE#64 = 0xFFFFFFFFFFFFFFFE#64 := by decide +kernel

/-- Section 2.4, "orange", with its home indices. -/
theorem test_digest_orange :
    fnvHash Config.default [0x6F#8, 0x72#8, 0x61#8, 0x6E#8, 0x67#8, 0x65#8] = 0x3E3F8FC3E44CE68B#64 ∧
    home Config.default 0x3E3F8FC3E44CE68B#64 127 = 39 ∧
    home { Config.default with idxBits := .bits32 } 0x3E3F8FC3E44CE68B#64 127 = 60 := by decide +kernel

theorem test_hinit : (after (exec .hinit { State.reset with h := 7#64 })).h = 0x811C9DC5#64 := by
  decide +kernel
theorem test_habsorb :
    (after (exec (.habsorb 0x61#8) State.reset)).h = 0x1C9DA4DB639FDDAC#64 := by decide +kernel
theorem test_hkey : answer .hkey (keyed [0x61#8, 0x62#8]) = some (dataWord 0xDD61C9CA48A5E50A#64) := by
  decide +kernel
theorem test_hkey_keeps_key : (after (exec .hkey (keyed [0x61#8, 0x62#8]))).key = [0x61#8, 0x62#8] := by
  decide +kernel

/-! ## The key buffer (95_test_vectors 3) -/

theorem test_kclr : (after (exec .kclr (keyed [0x61#8]))).key = [] := by decide +kernel
theorem test_kpush : (after (exec (.kpush 0x63#8) (keyed [0x61#8, 0x62#8]))).key
    = [0x61#8, 0x62#8, 0x63#8] := by decide +kernel
theorem test_kpush_full : answer (.kpush 0x65#8)
      { keyed [0x61#8] with cfg := { Config.default with keyMax := 1#16 } }
    = some (faultWord 0x21#8 4#8) := by decide +kernel
theorem test_kread : answer (.kread 1#16) (keyed [0x61#8, 0x62#8]) = some (dataWord 0x62#64) := by
  decide +kernel
theorem test_kread_beyond : answer (.kread 0xFFFF#16) (keyed [0x61#8, 0x62#8]) = some noneWord := by
  decide +kernel

/-! ## The table (95_test_vectors 4) -/

theorem test_growth : newcap 999 = 1998 ∧ newcap 1000 = 1600 ∧ newcap 1016 = 1625 ∧
    newcap 6656 = 10649 := by decide
theorem test_over : overLoad 381 508 = false ∧ overLoad 382 508 = true ∧ overLoad 95 127 = false ∧
    overLoad 96 127 = true := by decide

theorem test_construct : (after (exec .construct (table [0x61#8] oneRow 1))).slot0 = [] ∧
    (after (exec .construct (table [0x61#8] oneRow 1))).key = [0x61#8] := by decide +kernel

/-- A second INSERT of "a" replaces the value and counts nothing. -/
theorem test_insert_same : (after (exec (.insert 2#64) (table [0x61#8] oneRow 1))).slot0
      = [(42, { occ := true, key := [0x61#8], val := 2#64 })] ∧
    (after (exec (.insert 2#64) (table [0x61#8] oneRow 1))).size = 1#32 := by decide +kernel

/-- Program P4: the 96th fill doubles; `[0x60]` is in slot 1 under both capacities. Program P5 (d): in a table
that cannot grow it is refused before any write. -/
theorem test_insert_grows :
    (after (exec (.insert 0x1060#64) (table [0x60#8] [] 95))).slot1
      = [(1, { occ := true, key := [0x60#8], val := 0x1060#64 })] ∧
    (after (exec (.insert 0x1060#64) (table [0x60#8] [] 95))).cap = 254#32 ∧
    (after (exec (.insert 0x1060#64) (table [0x60#8] [] 95))).bank = true ∧
    after (exec (.insert 1#64) { table [0x60#8] [] 95 with cfg := Config.withCapMax 127#32 })
      = State.raised { table [0x60#8] [] 95 with cfg := Config.withCapMax 127#32 } 0x30#8 7#8 := by
  decide +kernel

theorem test_get : answer .get (table [0x61#8] oneRow 1) = some (dataWord 1#64) := by decide +kernel

/-- Program P3: the home slot 121 of ":" holds "E". -/
theorem test_get_collision : answer .get
      (table [0x3A#8] [(121, { occ := true, key := [0x45#8], val := 0x222#64 })] 1) = some noneWord := by
  decide +kernel

theorem test_remove : (after (exec .remove (table [0x61#8] oneRow 1))).slot0 = [] ∧
    answer .remove (table [0x61#8] oneRow 1) = some (dataWord 1#64) := by decide +kernel
theorem test_remove_absent : answer .remove (table [0x62#8] oneRow 1) = some noneWord ∧
    (after (exec .remove (table [0x62#8] oneRow 1))).size = 1#32 := by decide +kernel

/-! ## The iterator, the system commands, faults, reset (95_test_vectors 5) -/

theorem test_itstart : (after (exec .itstart { fresh [] with icur := 9#32 })).statusWord = 3#64 ∧
    (after (exec .itstart { fresh [] with icur := 9#32 })).icur = 0#32 := by decide +kernel
theorem test_itnext :
    (after (exec .itnext { table [] oneRow 1 with itact := true })).key = [0x61#8] ∧
    (after (exec .itnext { table [] oneRow 1 with itact := true })).icur = 43#32 := by decide +kernel
theorem test_itnext_end :
    (after (exec .itnext { table [] oneRow 1 with itact := true, icur := 43#32 })).icur = 127#32 ∧
    answer .itnext { table [] oneRow 1 with itact := true, icur := 43#32 } = some noneWord := by
  decide +kernel

theorem test_nop_refused : answer .nop faulted = some (faultWord 0x31#8 5#8) := by decide +kernel

/-- Section 5.2: LOADF, CONFIG and CAPMAX of the default parameters with `CAP_MAX` = 69785. -/
theorem test_rdreg_hardwired :
    answer (.rdreg 0x07#8) State.reset = some (dataWord 0x400000003#64) ∧
    answer (.rdreg 0x08#8) State.reset = some (dataWord 0x1400040#64) ∧
    answer (.rdreg 0x09#8) faulted = some (dataWord 0x11099#64) := by decide +kernel
theorem test_rdreg_unassigned : answer (.rdreg 0x0C#8) State.reset = some (faultWord 0x02#8 3#8) ∧
    answer (.rdreg 0x0C#8) faulted = some (faultWord 0x31#8 5#8) := by decide +kernel

/-- The words of section 5.3, each from reset. -/
theorem test_rejected : answerWord 0x330000000000000000#72 State.reset = some (faultWord 0x33#8 1#8) ∧
    answerWord 0x318000000000000000#72 State.reset = some (faultWord 0x31#8 2#8) ∧
    answerWord 0x320000000000000000#72 State.reset = some (faultWord 0x32#8 5#8) := by decide +kernel
theorem test_rejected_in_fault_state :
    answerWord 0x330000000000000000#72 faulted = some (faultWord 0x31#8 5#8) := by decide +kernel

/-- A FAULT response word: kind 3, `FOP` in bits 15:8, `FCAUSE` in bits 7:0. -/
theorem test_fault_word : faultWord 0x31#8 5#8 = 0x30000000000003105#66 := by decide

theorem test_reset_discards_the_table :
    (after (step { faulted with tvalid := true, cap := 127#32, slot0 := oneRow, inputs := [.rst] }))
      = State.reset := by decide +kernel

/-! ## Witnesses: for every statement with hypotheses, a state and operands that meet them together -/

/-- The state after reset with the inputs `is`. -/
def withInputs (is : List HostInput) (s : State) : State := { s with inputs := is }

theorem test_meets_EveryDecodedWordIsItsEncoding :
    decode 0x220000000000000007#72 = .ok (.kread 7#16) := by decide

/-- A word that matches a row, an unassigned opcode, an assigned one that matches no row, a word that decodes. -/
theorem test_meets_DecodeFollowsMatchAndMask :
    (0x41#8, "ITNEXT", 0x410000000000000000#72, 0xFFFFFFFFFFFFFFFFFF#72) ∈ opcodeRows ∧
    assignedOp (CmdWord.op 0x420000000000000000#72) = false ∧
    (assignedOp (CmdWord.op 0x410000000000000001#72) = true ∧
      ∀ row ∈ opcodeRows, 0x410000000000000001#72 &&& row.2.2.2 ≠ row.2.2.1) ∧
    decode 0x0200000000000000FF#72 = .ok (.rdreg 0xFF#8) := by decide

theorem test_meets_StepExecutesTheDecodedCommand :
    ((given 0x210000000000000061#72 State.reset).inputs = .cmd 0x210000000000000061#72 :: [] ∧
      decode 0x210000000000000061#72 = .ok (.kpush 0x61#8)) ∧
    decodeTableWord 72 0x210000000000000061 = some (.kpush 0x61#8) := by decide +kernel

/-- `withFetchWord` makes the next step run the word, as the first command after reset. -/
theorem test_fetch_word :
    (after (step (State.reset.withFetchWord 72 0x210000000000000061))).key = [0x61#8] := by
  decide +kernel

theorem test_meets_RejectedWordRaisesItsCause :
    ((given 0x330000000000000000#72 State.reset).inputs = .cmd 0x330000000000000000#72 :: [] ∧
      State.reset.fault = false ∧ assignedOp (CmdWord.op 0x330000000000000000#72) = false) ∧
    assignedOp (CmdWord.op 0x220000000000010000#72) = true ∧
    CmdWord.reservedZero 0x220000000000010000#72 = false := by decide +kernel

theorem test_meets_EveryCommandGetsOneResponse :
    (given 0x310000000000000000#72 faulted).inputs = .cmd 0x310000000000000000#72 :: [] := by
  decide +kernel

theorem test_meets_EveryStepAnswers :
    (given 0x310000000000000000#72 State.reset).inputs = .cmd 0x310000000000000000#72 :: [] := by
  decide +kernel

/-- In the fault state: a readable register, the first unassigned number; otherwise: each of the seven causes,
and a command that executes. -/
theorem test_meets_ChecksGoInOrder :
    (given 0x02000000000000000B#72 faulted).fault = true ∧
    0x02000000000000000B / 2 ^ 64 = 0x02 ∧ 0x02000000000000000B % 2 ^ 64 ≤ 0x0B ∧
    ¬ (0x02000000000000000C % 2 ^ 64 ≤ 0x0B) ∧
    (given 0x420000000000000000#72 State.reset).fault = false ∧
    firstFailing State.reset 0x420000000000000001#72 = some 1#8 ∧
    firstFailing State.reset 0x310000000000000001#72 = some 2#8 ∧
    firstFailing State.reset 0x02000000000000000C#72 = some 3#8 ∧
    firstFailing { keyed [0x61#8] with cfg := { Config.default with keyMax := 1#16 } }
      0x210000000000000000#72 = some 4#8 ∧
    firstFailing State.reset 0x410000000000000000#72 = some 5#8 ∧
    firstFailing (fresh []) 0x410000000000000000#72 = some 6#8 ∧
    firstFailing { table [0x60#8] [] 95 with cfg := Config.withCapMax 127#32 }
      0x300000000000000000#72 = some 7#8 ∧
    firstFailing State.reset 0x02000000000000000B#72 = none := by decide +kernel

theorem test_meets_FaultStateRefusesCommands :
    (given 0x02000000000000000C#72 faulted).inputs = .cmd 0x02000000000000000C#72 :: [] ∧
    faulted.fault = true ∧
    ¬ (CmdWord.op 0x02000000000000000C#72 = 0x02#8 ∧
      (CmdWord.arg 0x02000000000000000C#72).extractLsb' 8 56 = 0#56 ∧
      ((CmdWord.arg 0x02000000000000000C#72).extractLsb' 0 8).toNat ≤ 0x0B) := by decide +kernel

theorem test_meets_FaultStateStillReadsRegisters :
    (given 0x02000000000000000B#72 faulted).inputs = .cmd 0x02000000000000000B#72 :: [] ∧
    faulted.fault = true ∧ CmdWord.op 0x02000000000000000B#72 = 0x02#8 ∧
    (CmdWord.arg 0x02000000000000000B#72).extractLsb' 8 56 = 0#56 ∧
    ((CmdWord.arg 0x02000000000000000B#72).extractLsb' 0 8).toNat ≤ 0x0B := by decide +kernel

/-- A refused CONSTRUCT, `rst`, and `rst` with a command in flight. -/
theorem test_meets_OnlyResetLeavesTheFaultState :
    faulted.fault = true ∧
    (∃ t, step (given 0x010000000000000000#72 faulted) = .next t ∧
      (∀ rest, (given 0x010000000000000000#72 faulted).inputs ≠ .rst :: rest) ∧
      ∀ w rest, (given 0x010000000000000000#72 faulted).inputs ≠ .cmdThenRst w :: rest) ∧
    (∃ t, step (withInputs [.rst] faulted) = .next t ∧
      ∃ rest, (withInputs [.rst] faulted).inputs = .rst :: rest) ∧
    (∃ t, step (withInputs [.cmdThenRst 0#72] faulted) = .next t ∧
      ∃ w rest, (withInputs [.cmdThenRst 0#72] faulted).inputs = .cmdThenRst w :: rest) :=
  ⟨rfl, ⟨_, rfl, nofun, nofun⟩, ⟨_, rfl, _, rfl⟩, ⟨_, rfl, _, _, rfl⟩⟩

theorem test_meets_FaultChangesOnlyItsRecord :
    (given 0x310000000000000000#72 State.reset).inputs = .cmd 0x310000000000000000#72 :: [] ∧
    State.reset.fault = false ∧
    ∃ t, step (given 0x310000000000000000#72 State.reset) = .next t ∧ t.fault = true :=
  ⟨rfl, rfl, _, rfl, rfl⟩

theorem test_meets_RstResetsFromEveryState :
    (withInputs [.rst] faulted).inputs = .rst :: [] ∧
    (withInputs [.cmdThenRst 0#72] faulted).inputs = .cmdThenRst 0#72 :: [] := ⟨rfl, rfl⟩

theorem test_meets_IdleBlockKeepsItsState : faulted.inputs = [] := rfl

/-- For the statements whose hypotheses are the two values of `FAULT` alone (NOP, HINIT, HABSORB, HKEY, KCLR,
KREAD, CONSTRUCT) and the reserved bits of formats Z, B and X. -/
theorem test_meets_fault_state_and_not : faulted.fault = true ∧ (keyed [0x61#8]).fault = false ∧
    (1#64 ≠ 0#64) ∧ 2 ^ 8 ≤ (0x100#64).toNat ∧ 2 ^ 16 ≤ (0x10000#64).toNat := by decide +kernel

theorem test_meets_RdregReadsItsRegister : (0x0B#8).toNat ≤ 0x0B ∧
    (0x0B < (0x0C#8).toNat ∧ State.reset.fault = false) ∧
    (0x0B < (0x0C#8).toNat ∧ faulted.fault = true) := by decide +kernel

/-- A full key buffer, and one with room for a last byte. -/
theorem test_meets_KpushAppendsOneByte :
    let full : State := { keyed [0x61#8] with cfg := { Config.default with keyMax := 1#16 } }
    let room : State := { keyed [0x61#8] with cfg := { Config.default with keyMax := 2#16 } }
    (full.fault = false ∧ full.klen = full.cfg.keyMax) ∧
    (room.fault = false ∧ room.klen.toNat < room.cfg.keyMax.toNat) := by decide +kernel

theorem test_meets_InsertReplacesAnOccupiedSlot :
    let s := table [0x61#8] oneRow 1
    s.fault = false ∧ s.tvalid = true ∧ (s.slotRead s.homeIndex).occ = true := by decide +kernel

/-- The last fill that does not grow: the 95th. -/
theorem test_meets_InsertFillsAnEmptySlot :
    let s := table [0x62#8] oneRow 94
    s.fault = false ∧ s.tvalid = true ∧ (s.slotRead s.homeIndex).occ = false ∧
      4 * (s.size.toNat + 1) ≤ 3 * s.cap.toNat := by decide +kernel

/-- The first that grows: the 96th. -/
theorem test_meets_InsertResizesOverThreeQuarters :
    let s := table [0x62#8] oneRow 95
    s.fault = false ∧ s.tvalid = true ∧ (s.slotRead s.homeIndex).occ = false ∧
      3 * s.cap.toNat < 4 * (s.size.toNat + 1) ∧ newcap s.cap.toNat ≤ s.cfg.capMax.toNat := by
  decide +kernel

/-- `CAP_MAX` one below and at the next capacity. -/
theorem test_meets_InsertRefusesToOutgrowMemory :
    let s : State := { table [0x62#8] oneRow 95 with cfg := Config.withCapMax 253#32 }
    let t : State := { table [0x62#8] oneRow 95 with cfg := Config.withCapMax 254#32 }
    faulted.fault = true ∧ (s.fault = false ∧ s.tvalid = true ∧ ((s.slotRead s.homeIndex).occ = false ∧
      3 * s.cap.toNat < 4 * (s.size.toNat + 1) ∧ s.cfg.capMax.toNat < newcap s.cap.toNat)) ∧
    (t.fault = false ∧ t.tvalid = true ∧ ¬ ((t.slotRead t.homeIndex).occ = false ∧
      3 * t.cap.toNat < 4 * (t.size.toNat + 1) ∧ t.cfg.capMax.toNat < newcap t.cap.toNat)) := by
  decide +kernel

/-- For GET, ITSTART and the commands without a table. -/
theorem test_meets_table_and_no_table : faulted.fault = true ∧
    (State.reset.fault = false ∧ State.reset.tvalid = false) ∧
    ((fresh []).fault = false ∧ (fresh []).tvalid = true) := by decide +kernel

theorem test_meets_RemoveEmptiesTheMatchingSlot :
    let s := table [0x62#8] oneRow 1
    let t := table [0x61#8] oneRow 1
    (s.fault = false ∧ s.tvalid = true ∧ s.lookup s.key = none) ∧
    (t.fault = false ∧ t.tvalid = true ∧ t.lookup t.key = some 1#64) := by decide +kernel

/-- The cursor at the occupied slot, and one past it. -/
theorem test_meets_ItnextYieldsTheNextOccupiedSlot :
    let s : State := { table [] oneRow 1 with itact := true, icur := 42#32 }
    let t : State := { table [] oneRow 1 with itact := true, icur := 43#32 }
    (s.fault = false ∧ s.tvalid = true ∧ s.itact = true ∧ s.icur.toNat ≤ 42 ∧ 42 < s.cap.toNat ∧
      (s.slotRead 42).occ = true ∧
      (∀ j, j < 42 → s.icur.toNat ≤ j → (s.slotRead j).occ = false) ∧
      (s.slotRead 42).key.length ≤ s.cfg.keyMax.toNat) ∧
    (t.fault = false ∧ t.tvalid = true ∧ t.itact = true ∧
      ∀ j, j < t.cap.toNat → t.icur.toNat ≤ j → (t.slotRead j).occ = false) := by decide +kernel

theorem test_meets_ItnextNeedsAnIteration :
    (fresh []).fault = false ∧ (fresh []).tvalid = true ∧ (fresh []).itact = false := by decide +kernel

/-- Every register, and none, is shut out by the command's opcode for some command that executes. -/
theorem test_meets_EachRegisterIsWrittenOnlyByItsCommands :
    (∃ t, exec .nop (fresh []) = .next t) ∧
    Instr.nop.opcode ∉ [0x10#8, 0x11#8, 0x12#8, 0x30#8, 0x31#8, 0x32#8, 0x20#8, 0x21#8, 0x41#8, 0x01#8,
      0x40#8] ∧
    ∃ t, exec .get State.reset = .next t ∧ t.fault ≠ State.reset.fault :=
  ⟨⟨_, rfl⟩, by decide, _, rfl, by decide +kernel⟩

theorem test_meets_KeyBufferPersists :
    (∃ t, exec .remove (table [0x61#8] oneRow 1) = .next t) ∧
    ∃ t, step (given 0x200000000000000000#72 (keyed [0x61#8])) = .next t ∧
      t.klen ≠ (keyed [0x61#8]).klen :=
  ⟨⟨_, rfl⟩, _, rfl, by decide +kernel⟩

/-- INSERT, a REMOVE that removes, CONSTRUCT. -/
theorem test_meets_TableChangesEndTheIteration :
    let s : State := { table [0x61#8] oneRow 1 with itact := true }
    s.fault = false ∧
    (∃ t, exec (.insert 2#64) s = .next t ∧ t.fault = false) ∧
    (∃ t, exec .remove s = .next t ∧ t.fault = false ∧ s.lookup s.key ≠ none) ∧
    ∃ t, exec .construct s = .next t :=
  ⟨rfl, ⟨_, rfl, by decide +kernel⟩, ⟨_, rfl, by decide +kernel, by decide +kernel⟩, _, rfl⟩

theorem test_meets_ShortDigestsIgnoreMulHh :
    hi Config.default.basis = 0 ∧ ([0xFF#8] : Key).length ≤ 1 := by decide +kernel

theorem test_meets_DigestsStayBelowAllOnes : ([0x00#8] : Key) ≠ [] := by decide

/-- A stream of one byte more, and a staged key of exactly, `KEY_MAX` = 1 byte. -/
theorem test_meets_StreamingAndKeyBufferDigestsAgree :
    let s : State := { State.reset with cfg := { Config.default with keyMax := 1#16 } }
    s.fault = false ∧
    (withInputs (inputsOf (expandPseudo (.hash [0x61#8, 0x62#8]))) s).inputs
      = inputsOf (expandPseudo (.hash [0x61#8, 0x62#8])) ++ [] ∧
    (withInputs (inputsOf (expandPseudo (.hashk [0x61#8]))) s).inputs
      = inputsOf (expandPseudo (.hashk [0x61#8])) ++ [] ∧
    ([0x61#8] : Key).length ≤ s.cfg.keyMax.toNat := by decide +kernel

theorem test_meets_SlotAccessesStayInTheTable :
    0 < 127 ∧ Config.default.idxBits = .bits64 ∧
    ({ Config.default with idxBits := .bits32 } : Config).idxBits = .bits32 ∧
    0 < (fresh []).cap.toNat ∧ (table [] oneRow 1).nextOccupied = some 42 := by decide +kernel

theorem test_meets_LoadAndGrowthArithmetic : 999 < 1000 ∧ 1000 ≤ 1000 ∧ 1 ≤ 1 := by decide

/-- The key of the home slot, another key with that home (":" and "E"), and a key elsewhere. -/
theorem test_meets_InsertUpdatesTheTableAsAMap :
    let s := table [0x3A#8] [(121, { occ := true, key := [0x45#8], val := 0x222#64 })] 1
    (∃ t, exec (.insert 1#64) s = .next t ∧ s.fault = false ∧ t.fault = false ∧ t.cap = s.cap ∧
      t.bank = s.bank) ∧
    home s.cfg (fnvHash s.cfg [0x45#8]) s.cap.toNat = s.homeIndex ∧
    home s.cfg (fnvHash s.cfg [0x61#8]) s.cap.toNat ≠ s.homeIndex :=
  ⟨⟨_, rfl, by decide +kernel⟩, by decide +kernel, by decide +kernel⟩

theorem test_meets_RemoveErasesOnlyItsKey :
    let s := table [0x61#8] oneRow 1
    s.fault = false ∧ s.lookup s.key ≠ none ∧ ∃ t, exec .remove s = .next t ∧ t.fault = false :=
  ⟨rfl, by decide +kernel, _, rfl, by decide +kernel⟩

/-- A table that holds one pair and counts `n` has the invariant while `4 n <= 3 * 127`. -/
theorem table_inv {k : Key} (hk : k.length ≤ 64) {n : Nat} (h1 : 1 ≤ n) (h2 : 4 * n ≤ 3 * 127) :
    (table k oneRow n).Inv where
  cfg_wf := by
    show Config.default.wf = true
    decide
  itact_tvalid := nofun
  cap_growth := fun _ => ⟨0, rfl⟩
  cap_bounds := fun _ => ⟨by show 127 ≤ 127; omega, by show 127 ≤ 69785; omega⟩
  cap_zero := nofun
  load := fun _ => by
    show 4 * (BitVec.ofNat 32 n).toNat ≤ 3 * 127
    rw [BitVec.toNat_ofNat]
    omega
  size_ge := fun _ => by
    have h : (table k oneRow n).occupied = 1 := by
      show (List.range 127).countP (fun i => (Memory.read Slot.unlisted oneRow i).occ) = 1
      decide +kernel
    rw [h]
    show 1 ≤ (BitVec.ofNat 32 n).toNat
    rw [BitVec.toNat_ofNat]
    omega
  empty_slots := by
    show ∀ i, i < 127 → (Memory.read Slot.unlisted oneRow i).occ = false →
      Memory.read Slot.unlisted oneRow i = Slot.empty
    decide +kernel
  klen_le := by
    show (BitVec.ofNat 16 k.length).toNat ≤ 64
    rw [BitVec.toNat_ofNat]
    omega
  key_len := by
    show ∀ i, i < 127 → (Memory.read Slot.unlisted oneRow i).key.length ≤ 64
    decide +kernel
  no_fault := fun _ => ⟨rfl, rfl⟩
  fault_cause := nofun
  h_range := fun _ => by
    show ¬ 0x00000000811C9DC5#64 = BitVec.allOnes 64
    decide
  icur_le := nofun
  placed := by
    show ∀ i, i < 127 → (Memory.read Slot.unlisted oneRow i).occ = true →
      home Config.default (fnvHash Config.default (Memory.read Slot.unlisted oneRow i).key) 127 = i
    decide +kernel
  keybuf_wf := ⟨Memory.writeList_wf _ _ _ rfl, Memory.writeList_below _ _ (by show 0 + k.length ≤ 64; omega) nofun⟩
  slots_wf := fun b => by
    cases b
    · refine ⟨by show Memory.wf Slot.unlisted oneRow = true; decide +kernel, fun e he => ?_⟩
      obtain rfl := List.mem_singleton.mp he
      show 42 < 69785
      omega
    · exact ⟨rfl, nofun⟩

/-- A table that counts 95: the next fill doubles the capacity. -/
theorem test_meets_DoublingResizeLosesNothing :
    let s := table [0x62#8] oneRow 95
    s.Inv ∧ s.fault = false ∧ s.cap.toNat < 1000 ∧
      ∃ t, exec (.insert 2#64) s = .next t ∧ t.fault = false ∧ t.cap ≠ s.cap :=
  ⟨table_inv (by decide) (by omega) (by omega), rfl, by decide +kernel, _, rfl, by decide +kernel⟩

theorem test_meets_OneResizeRestoresTheLoad :
    let s := table [0x62#8] oneRow 95
    s.fault = false ∧ 127 ≤ s.cap.toNat ∧ 4 * s.size.toNat ≤ 3 * s.cap.toNat ∧
      ∃ t, exec (.insert 2#64) s = .next t ∧ t.fault = false :=
  ⟨rfl, by decide +kernel, by decide +kernel, _, rfl, by decide +kernel⟩

theorem test_meets_SizeNeverWraps :
    (let s := table [0x62#8] oneRow 95;
      s.Inv ∧ s.fault = false ∧ (s.slotRead s.homeIndex).occ = false ∧
        ∃ t, exec (.insert 2#64) s = .next t ∧ t.fault = false) ∧
    (let s := table [0x61#8] oneRow 1;
      s.Inv ∧ s.fault = false ∧ s.lookup s.key ≠ none ∧
        ∃ t, exec .remove s = .next t ∧ t.fault = false) :=
  ⟨⟨table_inv (by decide) (by omega) (by omega), rfl, by decide +kernel, _, rfl, by decide +kernel⟩,
    table_inv (by decide) (by omega) (by omega), rfl, by decide +kernel, _, rfl, by decide +kernel⟩

/-- The invariant does not depend on the inputs. -/
theorem inv_given {s : State} (h : s.Inv) (w : CmdWord) : (given w s).Inv := { h with }

/-- `SIZE` is the number of occupied slots, and a REMOVE follows. -/
theorem test_meets_SizeCountsTheOccupiedSlots :
    let s := given 0x320000000000000000#72 (table [0x61#8] oneRow 1)
    s.Inv ∧ s.size.toNat = s.occupied ∧ ∃ t, step s = .next t ∧
      ¬ (1000 ≤ s.cap.toNat ∧ s.cap.toNat < t.cap.toNat) :=
  ⟨inv_given (table_inv (by decide) (by omega) (by omega)) _, by decide +kernel, _, rfl,
    by decide +kernel⟩

/-- The smallest `CAP_MAX` that lets 127 double. -/
theorem test_meets_NinetySixthFillDoubles :
    let s : State := { table [0x62#8] oneRow 95 with cfg := Config.withCapMax 254#32 }
    s.fault = false ∧ s.tvalid = true ∧ s.cap = 127#32 ∧ 254 ≤ s.cfg.capMax.toNat ∧
      (s.slotRead s.homeIndex).occ = false := by decide +kernel

/-- Two keys of `KEY_MAX` = 1 byte that collide. -/
theorem test_meets_TwoInsertsOnAFreshTable :
    let c : Config := { Config.default with keyMax := 1#16 }
    c.wf = true ∧ ([0x3A#8] : Key) ≠ [0x45#8] ∧ ([0x3A#8] : Key).length ≤ c.keyMax.toNat ∧
      ([0x45#8] : Key).length ≤ c.keyMax.toNat ∧ ([] : Key).length ≤ c.keyMax.toNat ∧
      home c (fnvHash c [0x3A#8]) 127 = home c (fnvHash c [0x45#8]) 127 := by decide +kernel

theorem test_meets_IterationYieldsEachPairOnce :
    let s := withInputs (inputsOf [.itstart, .itnext, .itnext]) (table [] oneRow 1)
    s.fault = false ∧ s.tvalid = true ∧
      (∀ i, i < s.cap.toNat → (s.slotRead i).key.length ≤ s.cfg.keyMax.toNat) ∧
      s.inputs = inputsOf (.itstart :: List.replicate 2 .itnext) ++ [] := by decide +kernel

theorem test_meets_OtherCommandsLeaveTheIterationAlone :
    (∃ t, exec .get (table [0x61#8] oneRow 1) = .next t) ∧
    (∃ t, exec (.rdreg 0x0C#8) State.reset = .next t) ∧
    ∃ t, exec .remove (table [0x62#8] oneRow 1) = .next t ∧
      (table [0x62#8] oneRow 1).lookup (table [0x62#8] oneRow 1).key = none :=
  ⟨⟨_, rfl⟩, ⟨_, rfl⟩, _, rfl, by decide +kernel⟩

theorem test_meets_EveryStepKeepsTheInvariant :
    let s := given 0x300000000000000002#72 (table [0x62#8] oneRow 95)
    s.Inv ∧ ∃ t, step s = .next t :=
  ⟨inv_given (table_inv (by decide) (by omega) (by omega)) _, _, rfl⟩

theorem test_meets_ResetHasTheInvariant : Config.default.wf = true := by decide

theorem test_meets_HardwiredRegistersNeverChange :
    (∃ t, step (withInputs [.rst] faulted) = .next t) ∧ 0x07 ≤ (0x07#8).toNat ∧
      (0x07#8).toNat ≤ 0x0B ∧ 0x07 ≤ (0x0B#8).toNat ∧ (0x0B#8).toNat ≤ 0x0B :=
  ⟨⟨_, rfl⟩, by decide⟩

/-- Two tables that differ in a key-buffer byte, a slot above `CAP` and the other bank. -/
theorem test_meets_UnobservableStateNeverShows :
    let s := given 0x310000000000000000#72 (table [0x61#8] oneRow 1)
    let t : State := { s with
      keybuf := s.keybuf ++ [(9, 0xFF#8)],
      slot0 := oneRow ++ [(127, { occ := true, key := [], val := 3#64 })],
      slot1 := [(0, { occ := true, key := [], val := 4#64 })] }
    s ≠ t ∧ SameToHost s t ∧ (s.tvalid = true → 0 < s.cap.toNat) ∧
      (∃ s', step s = .next s') ∧ ∃ t', step t = .next t' :=
  ⟨by decide +kernel, ⟨rfl, rfl, rfl, by decide +kernel, rfl, rfl,
    by show ∀ i, i < 127 → Memory.read Slot.unlisted oneRow i = Memory.read Slot.unlisted
          (oneRow ++ [(127, { occ := true, key := [], val := 3#64 })]) i
       decide +kernel,
    rfl, rfl, rfl, rfl, rfl, rfl, rfl, rfl, rfl⟩, by decide +kernel, ⟨_, rfl⟩, _, rfl⟩

/-- With `KEY_MAX` = 1 the second KPUSH faults. -/
theorem test_meets_OrderedCommandsFaultOnlyWhenFull :
    let c : Config := { Config.default with keyMax := 1#16 }
    let is : List Instr := [.kpush 1#8, .kpush 2#8]
    c.wf = true ∧ inOrder false false is = true ∧
      ∃ t, Host.Core.run Sys2Proof.core 2 { State.resetWith c with inputs := inputsOf is } = .next t ∧
        t.fault = true :=
  ⟨by decide, by decide, _, rfl, by decide +kernel⟩

end Sys2Proof.Tests
end

namespace Sys2Proof

theorem IdxBits.toNat_ofNat_num (i : IdxBits) : (BitVec.ofNat 8 i.num).toNat = i.num := by
  cases i <;> rfl

/-! ## Register numbers (10_state R37) -/

theorem RegName.number_eq_of_ofNumber {n : Byte} {r : RegName} (h : RegName.ofNumber n = some r) :
    r.number = n := by
  unfold RegName.ofNumber at h
  split at h <;> cases h <;> rfl

/-- A number up to `0x0B` is the number of a register. -/
theorem RegName.exists_ofNumber_eq_some {n : Byte} (h : n.toNat ≤ 0x0B) :
    ∃ r, RegName.ofNumber n = some r :=
  Option.ne_none_iff_exists'.mp fun hn => absurd ((RegName.ofNumber_eq_none n).mp hn) (by omega)

end Sys2Proof

namespace Sys2Proof.Machine

/-! ## The words of formats B and R -/

/-- An opcode whose row is the decoder of formats B and R spells its command as R71 and R77 say. -/
theorem spellsByte_of_decodeFields {op : Byte} {f : Byte → Instr}
    (h : ∀ arg, decodeFields op arg = decodeByte f arg) : SpellsByte op f := by
  constructor
  · intro b
    have hb : (BitVec.ofNat 64 b.toNat).toNat = b.toNat := by
      rw [BitVec.toNat_ofNat]; omega
    rw [decode_mk, h, decodeByte_eq, hb, if_pos b.isLt, BitVec.ofNat_toNat, BitVec.setWidth_eq]
  · intro arg harg
    rw [decode_mk, h, decodeByte_eq, if_neg (by omega)]

/-! ## The registers as numbers (10_state R35 to R38) -/

theorem toNat_ofBool_eq_bit (b : Bool) : (BitVec.ofBool b).toNat = bit b := by cases b <;> rfl

theorem State.toNat_statusWord (s : State) : s.statusWord.toNat =
    bit s.tvalid + 2 * bit s.itact + 4 * bit s.fault + 8 * bit s.bank := by
  rw [State.statusWord, BitVec.toNat_setWidth_of_le (by decide)]
  simp only [toNat_append_eq, toNat_ofBool_eq_bit]
  omega

theorem toNat_configWord (c : Config) : (configWord c).toNat =
    c.keyMax.toNat + 2 ^ 16 * c.idxBits.num + 2 ^ 24 * bit c.mulHH := by
  rw [configWord, BitVec.toNat_setWidth_of_le (by decide)]
  simp only [toNat_append_eq, toNat_ofBool_eq_bit, IdxBits.toNat_ofNat_num]
  omega

/-- A register as RDREG reads it is its row of R37. -/
theorem State.toNat_readReg (s : State) (r : RegName) :
    (s.readReg r).toNat = regNumber s r.number.toNat := by
  cases r with
  | status => exact s.toNat_statusWord
  | finfo =>
    show s.faultRecord.toNat = s.fcause.toNat + 2 ^ 8 * s.fop.toNat
    rw [State.toNat_faultRecord]
    omega
  | h => rfl
  | klen => exact BitVec.toNat_setWidth_of_le (by decide)
  | size => exact BitVec.toNat_setWidth_of_le (by decide)
  | cap => exact BitVec.toNat_setWidth_of_le (by decide)
  | icur => exact BitVec.toNat_setWidth_of_le (by decide)
  | loadf => rfl
  | config => exact toNat_configWord s.cfg
  | capmax => exact BitVec.toNat_setWidth_of_le (by decide)
  | basis => rfl
  | prime => rfl

/-! ## RDREG (44_system R181) -/

theorem exec_rdreg_assigned {n : Byte} {r : RegName} (h : RegName.ofNumber n = some r) (s : State) :
    exec (.rdreg n) s = .next (s.told (dataWord (s.readReg r))) := by
  simp only [exec, execRdreg, h, State.respond_data]

theorem exec_rdreg_unassigned {n : Byte} (h : 0x0B < n.toNat) (s : State) :
    exec (.rdreg n) s = .next (s.unlessFaulted (State.raise .badRegister 0x02#8)) := by
  simp only [exec, execRdreg, (RegName.ofNumber_eq_none n).mpr h, Instr.opcode]

/-- Settles O18: an assigned number is some register's, whose word is its row of R37 as a number; an
unassigned one is none's. -/
theorem rdregReadsItsRegister : Obligations.RdregReadsItsRegister := by
  unfold Obligations.RdregReadsItsRegister
  refine ⟨spellsByte_of_decodeFields decodeFields_rdreg, fun s n => ⟨fun hn => ?_, fun hn hf => ?_,
    fun hn hf => ?_⟩⟩
  · obtain ⟨r, hr⟩ := RegName.exists_ofNumber_eq_some hn
    rw [← RegName.number_eq_of_ofNumber hr, ← State.toNat_readReg, BitVec.ofNat_toNat,
      BitVec.setWidth_eq, RegName.number_eq_of_ofNumber hr]
    exact ⟨exec_rdreg_assigned hr s, (s.readReg r).isLt⟩
  · rw [exec_rdreg_unassigned hn, State.unlessFaulted_of_not_fault hf, State.raise_eq]
    rfl
  · rw [exec_rdreg_unassigned hn, State.unlessFaulted_of_fault hf]

/-! ## Reset (10_state R41) -/

/-- Settles O14: the state after reset is a literal, so each of its fields and registers is read off it. -/
theorem resetStateHoldsTheStatedValues : Obligations.ResetStateHoldsTheStatedValues := by
  unfold Obligations.ResetStateHoldsTheStatedValues
  intro c
  and_intros <;> rfl

end Sys2Proof.Machine

namespace Sys2Proof

/-! ## The two halves of a word under a mask (30_encoding R70, R73) -/

theorem CmdWord.op_and (v w : CmdWord) :
    CmdWord.op (v &&& w) = CmdWord.op v &&& CmdWord.op w := BitVec.extractLsb'_and

theorem CmdWord.arg_and (v w : CmdWord) :
    CmdWord.arg (v &&& w) = CmdWord.arg v &&& CmdWord.arg w := BitVec.extractLsb'_and

/-- A word is determined by its two fields. -/
theorem CmdWord.eq_mk_iff {w : CmdWord} {op : Byte} {arg : Word} :
    w = CmdWord.mk op arg ↔ CmdWord.op w = op ∧ CmdWord.arg w = arg := by
  constructor
  · rintro rfl
    exact ⟨CmdWord.op_mk op arg, CmdWord.arg_mk op arg⟩
  · rintro ⟨rfl, rfl⟩
    exact (CmdWord.mk_op_arg w).symm

/-- Nothing is left of an argument above bit `k` exactly when it is a number of `k` bits. -/
theorem and_allOnes_shiftLeft_eq_zero_iff (arg : Word) (k : Nat) :
    arg &&& (BitVec.allOnes 64 <<< k) = 0#64 ↔ arg.toNat < 2 ^ k := by
  constructor
  · intro h
    refine Nat.lt_pow_two_of_testBit _ fun i hki => ?_
    change arg.getLsbD i = false
    by_cases hi : i < 64
    · have hbit := congrArg (fun x => x.getLsbD i) h
      simpa only [BitVec.getLsbD_and, BitVec.getLsbD_shiftLeft, BitVec.getLsbD_allOnes,
        BitVec.getLsbD_zero, hi, Nat.not_lt.mpr hki, show i - k < 64 by omega, decide_true,
        decide_false, Bool.not_false, Bool.and_true] using hbit
    · exact BitVec.getLsbD_of_ge arg i (by omega)
  · intro h
    ext i hi
    rcases Nat.lt_or_ge i k with hik | hki
    · simp [hik]
    · have hbit : arg[i] = false :=
        Nat.testBit_lt_two_pow (h.trans_le (Nat.pow_le_pow_right (by decide) hki))
      simp [hbit]

/-- A number of `n` bits is not changed by cutting the word down to them and widening it again. -/
theorem setWidth_ofNat_toNat {n : Nat} {arg : Word} (h : arg.toNat < 2 ^ n) :
    (BitVec.ofNat n arg.toNat).setWidth 64 = arg := by
  apply BitVec.eq_of_toNat_eq
  rw [BitVec.toNat_setWidth, BitVec.toNat_ofNat, Nat.mod_eq_of_lt h, Nat.mod_eq_of_lt arg.isLt]

/-- A word matches under a mask that keeps the opcode and the bits of the argument from `k` up. -/
theorem and_mask_eq_match_iff (w : CmdWord) (op : Byte) (k : Nat) :
    w &&& CmdWord.mk 0xFF#8 (BitVec.allOnes 64 <<< k) = CmdWord.mk op 0#64 ↔
      CmdWord.op w = op ∧ (CmdWord.arg w).toNat < 2 ^ k := by
  have hff : CmdWord.op w &&& 0xFF#8 = CmdWord.op w := BitVec.and_allOnes
  rw [CmdWord.eq_mk_iff, CmdWord.op_and, CmdWord.arg_and, CmdWord.op_mk, CmdWord.arg_mk, hff,
    and_allOnes_shiftLeft_eq_zero_iff]

end Sys2Proof

namespace Sys2Proof.Machine

/-! ## A row of R73 and the decoder -/

/-- The decoder follows a row of R73: match and mask leave open the `k` low bits of the argument; a word with
the row's opcode whose argument fits in them decodes to the row's command `f arg`, any other has a
reserved bit set; and the command has the row's mnemonic and opcode and the argument as its field. -/
structure FollowsRow (row : Byte × String × CmdWord × CmdWord) (k : Nat) (f : Word → Instr) : Prop where
  match_eq : row.2.2.1 = CmdWord.mk row.1 0#64
  mask_eq : row.2.2.2 = CmdWord.mk 0xFF#8 (BitVec.allOnes 64 <<< k)
  decodeFields_eq : ∀ arg, decodeFields row.1 arg =
    if arg.toNat < 2 ^ k then .ok (f arg) else .error .reservedBits
  mnemonic_eq : ∀ arg, (f arg).mnemonic = row.2.1
  opcode_eq : ∀ arg, (f arg).opcode = row.1
  argField_eq : ∀ arg, arg.toNat < 2 ^ k → (f arg).argField = arg

section Formats
variable {op : Byte} {name : String}

/-- The row of a command of format Z. -/
theorem followsRow_Z {i : Instr} (hdec : ∀ arg, decodeFields op arg = decodeZ i arg)
    (hname : i.mnemonic = name) (hop : i.opcode = op) (harg : i.argField = 0#64) :
    FollowsRow (op, name, CmdWord.mk op 0#64, CmdWord.mk 0xFF#8 (BitVec.allOnes 64 <<< 0)) 0
      fun _ => i where
  match_eq := rfl
  mask_eq := rfl
  decodeFields_eq arg := by rw [hdec, decodeZ_eq]
  mnemonic_eq _ := hname
  opcode_eq _ := hop
  argField_eq arg h := by
    rw [harg]
    exact BitVec.eq_of_toNat_eq (by simp at h; simp [h])

/-- The row of a command of format B or R. -/
theorem followsRow_byte {f : Byte → Instr} (hdec : ∀ arg, decodeFields op arg = decodeByte f arg)
    (hname : ∀ b, (f b).mnemonic = name) (hop : ∀ b, (f b).opcode = op)
    (harg : ∀ b, (f b).argField = b.setWidth 64) :
    FollowsRow (op, name, CmdWord.mk op 0#64, CmdWord.mk 0xFF#8 (BitVec.allOnes 64 <<< 8)) 8
      fun arg => f (BitVec.ofNat 8 arg.toNat) where
  match_eq := rfl
  mask_eq := rfl
  decodeFields_eq arg := by rw [hdec, decodeByte_eq]
  mnemonic_eq _ := hname _
  opcode_eq _ := hop _
  argField_eq arg h := by rw [harg, setWidth_ofNat_toNat h]

end Formats

theorem followsRow_kread :
    FollowsRow (0x22#8, "KREAD", 0x220000000000000000#72, 0xFFFFFFFFFFFFFF0000#72) 16
      fun arg => .kread (BitVec.ofNat 16 arg.toNat) where
  match_eq := by decide
  mask_eq := by decide
  decodeFields_eq arg := by rw [decodeFields_kread, decodeX_eq]
  mnemonic_eq _ := rfl
  opcode_eq _ := rfl
  argField_eq _ h := setWidth_ofNat_toNat h

theorem followsRow_insert :
    FollowsRow (0x30#8, "INSERT", 0x300000000000000000#72, 0xFF0000000000000000#72) 64 .insert where
  match_eq := by decide
  mask_eq := by decide
  decodeFields_eq arg := by rw [decodeFields_insert, decodeV, if_pos arg.isLt]
  mnemonic_eq _ := rfl
  opcode_eq _ := rfl
  argField_eq _ _ := rfl

/-- The decoder follows every row of R73. -/
theorem exists_followsRow : ∀ row ∈ opcodeRows, ∃ k f, FollowsRow row k f := by
  simp only [opcodeRows, List.forall_mem_cons]
  exact ⟨⟨_, _, followsRow_Z decodeFields_nop rfl rfl rfl⟩,
    ⟨_, _, followsRow_Z decodeFields_construct rfl rfl rfl⟩,
    ⟨_, _, followsRow_byte decodeFields_rdreg (fun _ => rfl) (fun _ => rfl) fun _ => rfl⟩,
    ⟨_, _, followsRow_Z decodeFields_hinit rfl rfl rfl⟩,
    ⟨_, _, followsRow_byte decodeFields_habsorb (fun _ => rfl) (fun _ => rfl) fun _ => rfl⟩,
    ⟨_, _, followsRow_Z decodeFields_hkey rfl rfl rfl⟩,
    ⟨_, _, followsRow_Z decodeFields_kclr rfl rfl rfl⟩,
    ⟨_, _, followsRow_byte decodeFields_kpush (fun _ => rfl) (fun _ => rfl) fun _ => rfl⟩,
    ⟨_, _, followsRow_kread⟩,
    ⟨_, _, followsRow_insert⟩,
    ⟨_, _, followsRow_Z decodeFields_get rfl rfl rfl⟩,
    ⟨_, _, followsRow_Z decodeFields_remove rfl rfl rfl⟩,
    ⟨_, _, followsRow_Z decodeFields_itstart rfl rfl rfl⟩,
    ⟨_, _, followsRow_Z decodeFields_itnext rfl rfl rfl⟩, List.forall_mem_nil _⟩

/-- No two rows of R73 have the same mnemonic. -/
theorem eq_of_mnemonic_eq {r r' : Byte × String × CmdWord × CmdWord} (hr : r ∈ opcodeRows)
    (hr' : r' ∈ opcodeRows) (h : r.2.1 = r'.2.1) : r = r' :=
  List.inj_on_of_nodup_map (f := fun r => r.2.1) (by decide) hr hr' h

theorem decode_of_not_assignedOp {w : CmdWord} (h : assignedOp (CmdWord.op w) = false) :
    decode w = .error .illegalOpcode :=
  decodeFields_illegal (by simpa [assignedOp, opcodeRows] using h) _

theorem exists_row_of_assignedOp {op : Byte} (h : assignedOp op = true) :
    ∃ row ∈ opcodeRows, row.1 = op := by
  simpa only [assignedOp, List.contains_iff_mem, List.mem_map] using h

section
variable {row : Byte × String × CmdWord × CmdWord} {k : Nat} {f : Word → Instr} {w : CmdWord}

theorem FollowsRow.match_iff (hf : FollowsRow row k f) :
    w &&& row.2.2.2 = row.2.2.1 ↔ CmdWord.op w = row.1 ∧ (CmdWord.arg w).toNat < 2 ^ k := by
  rw [hf.match_eq, hf.mask_eq, and_mask_eq_match_iff]

/-- A word with the row's opcode is the row's command when it matches, and has a reserved bit set when not. -/
theorem FollowsRow.decode_eq (hf : FollowsRow row k f) (hop : row.1 = CmdWord.op w) :
    decode w = if w &&& row.2.2.2 = row.2.2.1 then .ok (f (CmdWord.arg w))
      else .error .reservedBits := by
  simp only [hf.match_iff, hop, true_and]
  rw [decode, ← hop, hf.decodeFields_eq]

end

/-- A word that decodes matches a row of R73, and decodes to that row's command. -/
theorem exists_followsRow_of_decode_ok {w : CmdWord} {i : Instr} (h : decode w = .ok i) :
    ∃ row ∈ opcodeRows, ∃ k f, FollowsRow row k f ∧ w &&& row.2.2.2 = row.2.2.1 ∧
      i = f (CmdWord.arg w) := by
  cases hw : assignedOp (CmdWord.op w) with
  | false => rw [decode_of_not_assignedOp hw] at h; cases h
  | true =>
    obtain ⟨row, hrow, hop⟩ := exists_row_of_assignedOp hw
    obtain ⟨k, f, hf⟩ := exists_followsRow row hrow
    rw [hf.decode_eq hop] at h
    split at h
    · exact ⟨row, hrow, k, f, hf, ‹_›, (Except.ok.inj h).symm⟩
    · cases h

/-- A word matches a row of R73 exactly when it decodes to a command of the row's mnemonic. -/
theorem match_iff_decode_mnemonic {row : Byte × String × CmdWord × CmdWord} (hrow : row ∈ opcodeRows)
    (w : CmdWord) :
    w &&& row.2.2.2 = row.2.2.1 ↔ ∃ i, decode w = .ok i ∧ i.mnemonic = row.2.1 := by
  constructor
  · intro hm
    obtain ⟨k, f, hf⟩ := exists_followsRow row hrow
    exact ⟨_, (hf.decode_eq (hf.match_iff.mp hm).1.symm).trans (if_pos hm), hf.mnemonic_eq _⟩
  · rintro ⟨i, hi, hname⟩
    obtain ⟨row', hrow', k, f, hf, hm, rfl⟩ := exists_followsRow_of_decode_ok hi
    rwa [← eq_of_mnemonic_eq hrow' hrow ((hf.mnemonic_eq _).symm.trans hname)]

/-- Settles O4: the decoder follows each row of R73, and every word that decodes does so by one row. -/
theorem decodeFollowsMatchAndMask : Obligations.DecodeFollowsMatchAndMask := by
  unfold Obligations.DecodeFollowsMatchAndMask
  refine ⟨fun w row hrow => match_iff_decode_mnemonic hrow w, fun w => decode_of_not_assignedOp,
    fun w hw hnone => ?_, fun w i hi => ?_⟩
  · obtain ⟨row, hrow, hop⟩ := exists_row_of_assignedOp hw
    obtain ⟨k, f, hf⟩ := exists_followsRow row hrow
    rw [hf.decode_eq hop, if_neg (hnone row hrow)]
  · obtain ⟨row, -, k, f, hf, hm, rfl⟩ := exists_followsRow_of_decode_ok hi
    obtain ⟨hop, harg⟩ := hf.match_iff.mp hm
    exact ⟨(hf.opcode_eq _).trans hop.symm, hf.argField_eq _ harg⟩

end Sys2Proof.Machine

namespace Sys2Proof.Machine

/-! ## One round of the hash (40_hash R103) -/

/-- What a round multiplies: a byte is zero-extended before the exclusive-or. -/
theorem toNat_xor_setWidth (h : Word) (b : Byte) :
    (h ^^^ b.setWidth 64).toNat = h.toNat ^^^ b.toNat := by
  rw [BitVec.toNat_xor, BitVec.toNat_setWidth_of_le (by decide)]

/-- The split multiply as R101 writes it, partial product by partial product. -/
theorem toNat_fnvMul_eq_partialProducts (c : Config) (x : Word) :
    (fnvMul c x).toNat =
      ((hi x * lo c.prime + lo x * hi c.prime + if c.mulHH then hi x * hi c.prime else 0) % 2 ^ 64
        * 2 ^ 32 + lo x * lo c.prime) % 2 ^ 64 := by
  rw [fnvMul, BitVec.toNat_ofNat, Nat.mod_mod, Nat.shiftLeft_eq]

/-- Settles O39: the reduction of R102 after the multiply of R101 after the exclusive-or, each as a number. -/
theorem oneRoundInExactArithmetic : Obligations.OneRoundInExactArithmetic := by
  unfold Obligations.OneRoundInExactArithmetic
  intro c h b
  rw [fnvStep, toNat_fnvReduce, toNat_fnvMul_eq_partialProducts]
  simp only [hi, lo, toNat_xor_setWidth]

/-! ## Commands of format Z, and the check of the fault state -/

/-- An opcode whose row is the decoder of format Z spells its command as R71 and R77 say. -/
theorem spellsZ_of_decodeFields {op : Byte} {i : Instr}
    (h : ∀ arg, decodeFields op arg = decodeZ i arg) : SpellsZ op i := by
  constructor
  · rw [decode_mk, h, decodeZ, if_pos rfl]
  · intro arg harg
    rw [decode_mk, h, decodeZ, if_neg harg]

/-- A command that begins with the check of the fault state is refused there (60_exceptions R202). -/
theorem refusedInFaultState_of_exec {i : Instr} {run : State → State}
    (h : ∀ s, exec i s = .next (s.unlessFaulted run)) : RefusedInFaultState i := fun s hf => by
  rw [h, State.unlessFaulted_of_fault hf]

/-! ## HINIT (40_hash R108) -/

theorem exec_hinit (s : State) :
    exec .hinit s =
      .next (s.unlessFaulted fun s => State.respond .done { s with h := s.cfg.basis }) := rfl

/-- Settles O19: the row of opcode `0x10` is of format Z, and past the check of the fault state HINIT writes
`H` alone. -/
theorem hinitLoadsTheBasis : Obligations.HinitLoadsTheBasis := by
  unfold Obligations.HinitLoadsTheBasis
  refine ⟨spellsZ_of_decodeFields decodeFields_hinit, refusedInFaultState_of_exec exec_hinit,
    fun s hf => ?_⟩
  rw [exec_hinit, State.unlessFaulted_of_not_fault hf, State.respond_done]

end Sys2Proof.Machine

namespace Sys2Proof.Machine

/-! ## KCLR (41_keybuf R120) -/

theorem exec_kclr (s : State) :
    exec .kclr s = .next (s.unlessFaulted fun s => State.respond .done { s with klen := 0#16 }) := rfl

/-- With `KLEN` 0 the key is the empty sequence (10_state R27). -/
theorem State.key_eq_nil_of_klen_eq_zero {s : State} (h : s.klen = 0#16) : s.key = [] :=
  List.eq_nil_of_length_eq_zero (by rw [State.length_key, h]; rfl)

/-- Settles O22: the row of opcode `0x20` is of format Z, and past the check of the fault state KCLR writes
`KLEN` alone; a key of length 0 is empty. -/
theorem kclrEmptiesTheKey : Obligations.KclrEmptiesTheKey := by
  unfold Obligations.KclrEmptiesTheKey
  refine ⟨spellsZ_of_decodeFields decodeFields_kclr, refusedInFaultState_of_exec exec_kclr,
    fun s hf => ⟨?_, State.key_eq_nil_of_klen_eq_zero rfl⟩⟩
  rw [exec_kclr, State.unlessFaulted_of_not_fault hf, State.respond_done]

/-! ## KPUSH (41_keybuf R121) -/

theorem exec_kpush (b : Byte) (s : State) :
    exec (.kpush b) s = .next (s.unlessFaulted fun s =>
      if s.klen = s.cfg.keyMax then s.raise .keyOverflow 0x21#8
      else State.respond .done (s.pushKeyByte b)) := rfl

/-- KPUSH's write as a record update, `KLEN` counted in Nat. -/
theorem State.pushKeyByte_eq (b : Byte) (s : State) :
    s.pushKeyByte b = { s with
      keybuf := Memory.write keyByteUnlisted s.keybuf s.klen.toNat b
      klen := BitVec.ofNat 16 (s.klen.toNat + 1) } := by
  rw [BitVec.ofNat_add, BitVec.ofNat_toNat, BitVec.setWidth_eq]
  rfl

/-- Settles O23: a full buffer raises KeyOverflow; otherwise the write at index `KLEN` appends to the key, and
`KLEN`, below the 16-bit `KEY_MAX`, does not wrap. -/
theorem kpushAppendsOneByte : Obligations.KpushAppendsOneByte := by
  unfold Obligations.KpushAppendsOneByte
  refine ⟨spellsByte_of_decodeFields decodeFields_kpush,
    fun b => refusedInFaultState_of_exec (exec_kpush b), fun s b hf hfull => ?_, fun s b hf hlt => ?_⟩
  · rw [exec_kpush, State.unlessFaulted_of_not_fault hf, if_pos hfull, State.raise_eq]
    rfl
  · have hne : s.klen ≠ s.cfg.keyMax := fun h => hlt.ne (congrArg BitVec.toNat h)
    have hwrap : s.klen.toNat + 1 < 2 ^ 16 := by have := s.cfg.keyMax.isLt; omega
    refine ⟨Memory.write keyByteUnlisted s.keybuf s.klen.toNat b, ?_, fun i => Memory.read_write .., ?_⟩
    · rw [exec_kpush, State.unlessFaulted_of_not_fault hf, if_neg hne, State.respond_done,
        State.pushKeyByte_eq]
    · rw [← State.pushKeyByte_eq, State.key_pushKeyByte s b hwrap]

/-! ## KREAD (41_keybuf R122) -/

/-- The words of opcode `0x22` are of format X (30_encoding R71, R77). -/
theorem decode_mk_kread (arg : Word) :
    decode (CmdWord.mk 0x22#8 arg) =
      if arg.toNat < 2 ^ 16 then .ok (.kread (BitVec.ofNat 16 arg.toNat)) else .error .reservedBits := by
  rw [decode_mk, decodeFields_kread, decodeX_eq]

theorem exec_kread (x : BitVec 16) (s : State) :
    exec (.kread x) s = .next (s.unlessFaulted fun s =>
      if x.toNat < s.klen.toNat then s.respond (.data ((s.keyByte x.toNat).setWidth 64))
      else s.respond .absent) := rfl

/-- Settles O24: a word of opcode `0x22` is KREAD of its `arg` below 65536, and the check of KREAD is
whether the key has a byte at the index. -/
theorem kreadReturnsOneByte : Obligations.KreadReturnsOneByte := by
  unfold Obligations.KreadReturnsOneByte
  refine ⟨fun x => ?_, fun arg harg => ?_, fun x => refusedInFaultState_of_exec (exec_kread x),
    fun s x hf => ⟨State.length_key s, ?_⟩⟩
  · have hx : (BitVec.ofNat 64 x.toNat).toNat = x.toNat := by
      rw [BitVec.toNat_ofNat]; omega
    rw [decode_mk_kread, hx, if_pos x.isLt, BitVec.ofNat_toNat, BitVec.setWidth_eq]
  · rw [decode_mk_kread, if_neg (by omega)]
  · rw [exec_kread, State.unlessFaulted_of_not_fault hf, State.getElem?_key]
    by_cases hx : x.toNat < s.klen.toNat
    · rw [if_pos hx, if_pos hx, State.respond_data, ← BitVec.ofNat_toNat]
    · rw [if_neg hx, if_neg hx, State.respond_absent]

/-! ## What changes the key buffer (41_keybuf R123) -/

/-- A command leaves the key buffer, or it is one of the three that write it and raises no fault. -/
theorem Effect.keyBuffer_cases {s t : State} {i : Instr} (h : Effect s i t) :
    (t.keybuf = s.keybuf ∧ t.klen = s.klen) ∨
      t.fault = false ∧ (i = .kclr ∨ (∃ b, i = .kpush b) ∨ i = .itnext) := by
  cases h with
  | kclr hf => exact .inr ⟨hf, .inl rfl⟩
  | kpush b hf => exact .inr ⟨hf, .inr (.inl ⟨b, rfl⟩)⟩
  | itnext n hf => exact .inr ⟨hf, .inr (.inr rfl)⟩
  | insert | insertGrow | remove => exact .inl (by simp)
  | _ => exact .inl ⟨rfl, rfl⟩

/-- Settles O37: of what a command can do only KCLR, KPUSH and ITNEXT write the key buffer, and of the other
steps (idle, a rejected word, reset) only reset. -/
theorem keyBufferPersists : Obligations.KeyBufferPersists := by
  unfold Obligations.KeyBufferPersists
  constructor
  · intro i s t hi h
    obtain hkept | ⟨-, hwrites⟩ := (exec_effect h).keyBuffer_cases
    · exact hkept
    · obtain rfl | ⟨v, rfl⟩ | rfl | rfl := hi <;> simp at hwrites
  · intro s t h hchanged
    obtain ⟨-, rfl⟩ | ⟨rest, hrst | ⟨w, hrst⟩, -⟩ | ⟨w, rest, hin, hcmd⟩ := step_cases h
    · simp at hchanged
    · exact .inr (.inl ⟨rest, hrst⟩)
    · exact .inr (.inr ⟨w, rest, hrst⟩)
    · obtain ⟨e, -, ⟨-, rfl⟩ | ⟨-, rfl⟩⟩ | ⟨i, hdec, -, heff⟩ := hcmd
      · simp [State.refused] at hchanged
      · simp at hchanged
      · obtain ⟨hbuf, hlen⟩ | ⟨hf, hwrites⟩ := heff.keyBuffer_cases
        · exact absurd hchanged (by simp [hbuf, hlen])
        · refine .inl ⟨w, rest, hin, hf, ?_⟩
          simpa only [hdec, Except.ok.injEq] using hwrites

end Sys2Proof.Machine

namespace Sys2Proof.Machine

/-! ## CONSTRUCT (42_table R136) -/

theorem exec_construct (s : State) :
    exec .construct s = .next (s.unlessFaulted fun s => State.respond .done
      { s with
        bank := false
        slot0 := Memory.fill Slot.unlisted Slot.empty capInit s.slot0
        cap := BitVec.ofNat 32 capInit
        size := 0#32
        icur := 0#32
        tvalid := true
        itact := false }) := rfl

/-- Settles O25: past the check of the fault state CONSTRUCT fills the first 127 slots of bank 0 with `EMPTY`
and writes no slot above them. -/
theorem constructMakesAnEmptyTable : Obligations.ConstructMakesAnEmptyTable := by
  unfold Obligations.ConstructMakesAnEmptyTable
  refine ⟨spellsZ_of_decodeFields decodeFields_construct, refusedInFaultState_of_exec exec_construct,
    fun s hf => ⟨Memory.fill Slot.unlisted Slot.empty capInit s.slot0, ?_, fun i => Memory.read_fill ..⟩⟩
  rw [exec_construct, State.unlessFaulted_of_not_fault hf, State.respond_done]
  rfl

/-! ## Commands that need a table (60_exceptions R196) -/

section
variable {s : State} {op : Byte} {run : State → State}

/-- Without a table, a command that checks for one raises NoTable. -/
theorem State.unlessFaulted_noTable (hf : s.fault = false) (ht : s.tvalid = false) :
    (s.unlessFaulted fun s => if !s.tvalid then s.raise .noTable op else run s) =
      s.raised op 5#8 := by
  rw [State.unlessFaulted_of_not_fault hf, if_pos (by rw [ht]; rfl), State.raise_eq]
  rfl

/-- With a table, a command that checks for one runs. -/
theorem State.unlessFaulted_table (hf : s.fault = false) (ht : s.tvalid = true) :
    (s.unlessFaulted fun s => if !s.tvalid then s.raise .noTable op else run s) = run s := by
  rw [State.unlessFaulted_of_not_fault hf, if_neg (by simp [ht])]

end

/-! ## GET (42_table R152) -/

theorem exec_get (s : State) :
    exec .get s = .next (s.unlessFaulted fun s =>
      if !s.tvalid then s.raise .noTable 0x31#8
      else if (s.slotRead s.homeIndex).holds s.key then
        State.respond (.data (s.slotRead s.homeIndex).val) { s with h := s.keyDigest }
      else State.respond .absent { s with h := s.keyDigest }) := rfl

/-- Settles O30: past its two checks GET answers what the slot comparator finds at the home slot, which is
the table's answer for `KEY`. -/
theorem getAnswersTheMatchingValue : Obligations.GetAnswersTheMatchingValue := by
  unfold Obligations.GetAnswersTheMatchingValue
  refine ⟨spellsZ_of_decodeFields decodeFields_get, refusedInFaultState_of_exec exec_get,
    fun s hf ht => ?_, fun s hf ht => ?_⟩
  · rw [exec_get, State.unlessFaulted_noTable hf ht]
  · rw [exec_get, State.unlessFaulted_table hf ht, State.lookup_key]
    by_cases hm : (s.slotRead s.homeIndex).holds s.key = true
    · rw [if_pos hm, if_pos hm, State.respond_data]
      rfl
    · rw [if_neg hm, if_neg hm, State.respond_absent]
      rfl

/-! ## REMOVE (42_table R155) -/

theorem exec_remove (s : State) :
    exec .remove s = .next (s.unlessFaulted fun s =>
      if !s.tvalid then s.raise .noTable 0x32#8
      else if (s.slotRead s.homeIndex).holds s.key then
        State.respond (.data (s.slotRead s.homeIndex).val) s.clearHome
      else State.respond .absent { s with h := s.keyDigest }) := rfl

/-- The table has no answer for `KEY` exactly when the comparator finds no match at the home slot. -/
theorem State.lookup_key_eq_none {s : State} :
    s.lookup s.key = none ↔ ¬ (s.slotRead s.homeIndex).holds s.key = true := by
  rw [State.lookup_key, ite_eq_right_iff]
  exact ⟨fun h hm => Option.some_ne_none _ (h hm), fun h hm => absurd hm h⟩

/-- The table's answer for `KEY` is the value of a matching home slot. -/
theorem State.lookup_key_eq_some {s : State} {v : Word} :
    s.lookup s.key = some v ↔
      (s.slotRead s.homeIndex).holds s.key = true ∧ (s.slotRead s.homeIndex).val = v := by
  rw [State.lookup_key, Option.ite_none_right_eq_some, Option.some.injEq]

/-- Settles O31: past its two checks REMOVE answers as GET does, and on a match empties the home slot. -/
theorem removeEmptiesTheMatchingSlot : Obligations.RemoveEmptiesTheMatchingSlot := by
  unfold Obligations.RemoveEmptiesTheMatchingSlot
  refine ⟨spellsZ_of_decodeFields decodeFields_remove, refusedInFaultState_of_exec exec_remove,
    fun s hf ht => ?_, fun s hf ht hnone => ?_, fun s v hf ht hsome => ?_⟩
  · rw [exec_remove, State.unlessFaulted_noTable hf ht]
  · rw [exec_remove, State.unlessFaulted_table hf ht, if_neg (State.lookup_key_eq_none.mp hnone),
      State.respond_absent]
    rfl
  · obtain ⟨hm, rfl⟩ := State.lookup_key_eq_some.mp hsome
    refine ⟨s.clearHome.told (dataWord (s.slotRead s.homeIndex).val), ?_,
      congrArg (State.told · _) s.clearHome_eq, fun b i => ?_⟩
    · rw [exec_remove, State.unlessFaulted_table hf ht, if_pos hm, State.respond_data]
    · rw [State.told_bankSlot, State.clearHome_bankSlot]
      rfl

/-! ## INSERT (42_table R140 to R147) -/

theorem exec_insert (v : Word) (s : State) :
    exec (.insert v) s = .next (s.unlessFaulted fun s =>
      if !s.tvalid then s.raise .noTable 0x30#8
      else if s.insertExhausts then s.raise .capacityExhausted 0x30#8
      else State.respond .done
        (if s.insertGrows then (s.storePair v).resize else s.storePair v)) := rfl

/-- A resize does not write the bank it leaves (R146). -/
theorem State.resize_bankSlot_old (s : State) : s.resize.bankSlot s.bank = s.slotRead := by
  funext i
  rw [State.bankSlot, State.resize_bankMem, if_neg (by simp)]
  rfl

section
variable {s : State} (v : Word)

/-- An INSERT that would outgrow `CAP_MAX` raises CapacityExhausted before any write (R143). -/
theorem exec_insert_exhausts (hf : s.fault = false) (ht : s.tvalid = true)
    (he : s.insertExhausts = true) : exec (.insert v) s = .next (s.raised 0x30#8 7#8) := by
  rw [exec_insert, State.unlessFaulted_table hf ht, if_pos he, State.raise_eq]
  rfl

/-- An INSERT that raises no fault stores its pair, then resizes when the table grows (R140). -/
theorem exec_insert_stores (hf : s.fault = false) (ht : s.tvalid = true)
    (he : ¬ s.insertExhausts = true) :
    exec (.insert v) s = .next (State.told
      (if s.insertGrows then (s.storePair v).resize else s.storePair v) doneWord) := by
  rw [exec_insert, State.unlessFaulted_table hf ht, if_neg he, State.respond_done]

/-- Storing over an occupied home slot counts nothing (R141). -/
theorem State.storePair_eq_of_occ (hocc : (s.slotRead s.homeIndex).occ = true) :
    s.storePair v = { s with
      slot0 := (s.storePair v).slot0, slot1 := (s.storePair v).slot1, h := s.keyDigest,
      itact := false } := by
  have hfills : s.insertFills = false := by rw [State.insertFills, hocc]; rfl
  exact (State.storePair_eq v s).trans (by rw [hfills]; rfl)

/-- Filling the home slot and resizing, as a record update (R140, R146). -/
theorem State.resize_storePair_eq_of_not_occ (hocc : (s.slotRead s.homeIndex).occ = false) :
    (s.storePair v).resize = { s with
      slot0 := (s.storePair v).resize.slot0, slot1 := (s.storePair v).resize.slot1, h := s.keyDigest,
      itact := false, size := BitVec.ofNat 32 (s.size.toNat + 1), bank := !s.bank,
      cap := BitVec.ofNat 32 (newcap s.cap.toNat) } := by
  have hfills : s.insertFills = true := by rw [State.insertFills, hocc]; rfl
  refine (State.resize_eq (s.storePair v)).trans ?_
  simp [hfills]

/-- After an INSERT that resizes, the bank left behind is the old sequence with the new pair. -/
theorem State.resize_storePair_bankSlot_old :
    (s.storePair v).resize.bankSlot s.bank = (s.storePair v).slotRead := by
  rw [← State.storePair_bank v s, State.resize_bankSlot_old]

/-- After an INSERT that resizes, the current bank holds the survivors of the old sequence with the new pair
(R147), and above the new capacity what it held before. -/
theorem State.resize_storePair_slotRead (j : Nat) :
    (s.storePair v).resize.slotRead j =
      if j < newcap s.cap.toNat then
        survivor s.cfg (s.storePair v).slotRead s.cap.toNat (newcap s.cap.toNat) j
      else s.bankSlot (!s.bank) j := by
  have hother : (s.storePair v).bankSlot (!s.bank) j = s.bankSlot (!s.bank) j := by
    rw [State.storePair_bankSlot, if_neg (by simp)]
  rw [State.resize_slotRead, State.storePair_cap, State.storePair_cfg, State.storePair_bank, hother]

end

/-- Settles O26: an occupied home slot is stored over, and nothing grows. -/
theorem insertReplacesAnOccupiedSlot : Obligations.InsertReplacesAnOccupiedSlot := by
  unfold Obligations.InsertReplacesAnOccupiedSlot
  intro s v hf ht hocc
  have hgrows : ¬ s.insertGrows = true := by simp [State.insertGrows_iff, hocc]
  have hexhausts : ¬ s.insertExhausts = true := by simp [State.insertExhausts_iff, hocc]
  refine ⟨(s.storePair v).told doneWord, ?_,
    congrArg (State.told · doneWord) (State.storePair_eq_of_occ v hocc), fun b i => ?_⟩
  · rw [exec_insert_stores v hf ht hexhausts, if_neg hgrows]
  · rw [State.told_bankSlot, State.storePair_bankSlot]

/-- Settles O28: the pair is stored in the old sequence, and the resize keeps that bank and puts its survivors
in the other one; the new capacity, at most `CAP_MAX`, fits its register. -/
theorem insertResizesOverThreeQuarters : Obligations.InsertResizesOverThreeQuarters := by
  unfold Obligations.InsertResizesOverThreeQuarters
  intro s v hf ht hocc hload hcap
  have hgrows : s.insertGrows = true := (State.insertGrows_iff s).mpr ⟨hocc, hload⟩
  have hexhausts : ¬ s.insertExhausts = true := fun he => by
    obtain ⟨-, -, hover⟩ := (State.insertExhausts_iff s).mp he
    exact hcap.not_gt hover
  refine ⟨(s.storePair v).resize.told doneWord, ?_,
    congrArg (State.told · doneWord) (State.resize_storePair_eq_of_not_occ v hocc), ?_,
    fun i => ?_, fun j => ?_⟩
  · rw [exec_insert_stores v hf ht hexhausts, if_pos hgrows]
  · rw [State.told_cap, State.resize_cap, State.storePair_cap, BitVec.toNat_ofNat,
      Nat.mod_eq_of_lt (hcap.trans_lt s.cfg.capMax.isLt)]
  · rw [State.told_bankSlot, State.resize_storePair_bankSlot_old, State.storePair_slotRead]
  · rw [State.told_slotRead, State.told_bankSlot, State.resize_storePair_bankSlot_old,
      State.resize_storePair_slotRead]

/-- Settles O29: every `arg` is a value, and the check of R143 is the only one an INSERT with a table makes. -/
theorem insertRefusesToOutgrowMemory : Obligations.InsertRefusesToOutgrowMemory := by
  unfold Obligations.InsertRefusesToOutgrowMemory
  refine ⟨fun v => ?_, fun v => refusedInFaultState_of_exec (exec_insert v), fun s v hf ht => ⟨?_, ?_⟩⟩
  · rw [decode_mk, decodeFields_insert, decodeV]
  · exact fun he => exec_insert_exhausts v hf ht ((State.insertExhausts_iff s).mpr he)
  · intro he
    refine ⟨_, exec_insert_stores v hf ht (mt (State.insertExhausts_iff s).mp he), ?_⟩
    split <;> simp [hf]

end Sys2Proof.Machine

namespace Sys2Proof.Machine

/-! ## ITSTART (43_iterate R171) -/

theorem exec_itstart (s : State) :
    exec .itstart s = .next (s.unlessFaulted fun s =>
      if !s.tvalid then s.raise .noTable 0x40#8
      else State.respond .done { s with icur := 0#32, itact := true }) := rfl

/-- Settles O32: the row of opcode `0x40` is of format Z, and past its two checks ITSTART writes `ICUR` and
`ITACT` alone. -/
theorem itstartRestartsTheIteration : Obligations.ItstartRestartsTheIteration := by
  unfold Obligations.ItstartRestartsTheIteration
  refine ⟨spellsZ_of_decodeFields decodeFields_itstart, refusedInFaultState_of_exec exec_itstart,
    fun s hf ht => ?_, fun s hf ht => ?_⟩
  · rw [exec_itstart, State.unlessFaulted_noTable hf ht]
  · rw [exec_itstart, State.unlessFaulted_table hf ht, State.respond_done]

/-! ## ITNEXT without an iteration (60_exceptions R197) -/

/-- With a table and no active iteration, ITNEXT raises IterInactive. -/
theorem exec_itnext_inactive {s : State} (hf : s.fault = false) (ht : s.tvalid = true)
    (ha : s.itact = false) : exec .itnext s = .next (s.raised 0x41#8 6#8) := by
  rw [exec, execItnext, State.unlessFaulted_table hf ht, if_pos (by rw [ha]; rfl), State.raise_eq]
  rfl

/-! ## Table changes and the iteration (43_iterate R173) -/

section
variable {s t : State}

/-- An INSERT that executes leaves a table and no active iteration, whether it resizes or not. -/
theorem Effect.insert_endsIteration {v : Word} (h : Effect s (.insert v) t) (hf : t.fault = false) :
    t.tvalid = true ∧ t.itact = false := by
  cases h with
  | refused hfault => exact absurd hf (by simp [State.refused, hfault])
  | raised => exact absurd hf (by simp)
  | insert _ _ ht => exact ⟨by simp [ht], by simp⟩
  | insertGrow _ _ ht => exact ⟨by simp [ht], by simp⟩

/-- A REMOVE that removes leaves a table and no active iteration. -/
theorem Effect.remove_endsIteration (h : Effect s .remove t) (hf : t.fault = false)
    (hfound : s.lookup s.key ≠ none) : t.tvalid = true ∧ t.itact = false := by
  cases h with
  | refused hfault => exact absurd hf (by simp [State.refused, hfault])
  | raised => exact absurd hf (by simp)
  | remove _ ht => exact ⟨by simp [ht], by simp⟩
  | removeNone _ _ hm => exact absurd (State.lookup_key_eq_none.mpr (by simp [hm])) hfound

/-- A CONSTRUCT outside the fault state raises no fault and leaves a table and no active iteration. -/
theorem exec_construct_endsIteration (hf : s.fault = false) (h : exec .construct s = .next t) :
    t.fault = false ∧ t.tvalid = true ∧ t.itact = false := by
  rw [exec_construct, State.unlessFaulted_of_not_fault hf] at h
  obtain rfl := Host.Outcome.next.inj h
  exact ⟨by simp [hf], by simp, by simp⟩

end

/-- Settles O38: each of the three leaves a table and no active iteration, outside the fault state, which is
where ITNEXT raises IterInactive. -/
theorem tableChangesEndTheIteration : Obligations.TableChangesEndTheIteration := by
  unfold Obligations.TableChangesEndTheIteration
  intro s t hf h
  have hended : t.fault = false ∧ t.tvalid = true ∧ t.itact = false := by
    obtain ⟨v, hexec, hft⟩ | ⟨hexec, hft, hfound⟩ | hexec := h
    · exact ⟨hft, (exec_effect hexec).insert_endsIteration hft⟩
    · exact ⟨hft, (exec_effect hexec).remove_endsIteration hft hfound⟩
    · exact exec_construct_endsIteration hf hexec
  obtain ⟨hft, htable, hinactive⟩ := hended
  exact ⟨hinactive, exec_itnext_inactive hft htable hinactive⟩

end Sys2Proof.Machine

namespace Sys2Proof.Machine

/-! ## NOP (44_system R180) -/

theorem exec_nop (s : State) : exec .nop s = .next (s.unlessFaulted (State.respond .done)) := rfl

/-- Settles O17: the row of opcode `0x00` is of format Z, and past the check of the fault state NOP gives the
response DONE alone. -/
theorem nopOnlyResponds : Obligations.NopOnlyResponds := by
  unfold Obligations.NopOnlyResponds
  refine ⟨spellsZ_of_decodeFields decodeFields_nop, refusedInFaultState_of_exec exec_nop, fun s hf => ?_⟩
  rw [exec_nop, State.unlessFaulted_of_not_fault hf, State.respond_done]

end Sys2Proof.Machine

namespace Sys2Proof

/-! ## Formats, the opcode map and the decoder (30_encoding R71, R73, R76, R77) -/

theorem mem_formats (f : Format) : f ∈ [Format.Z, .B, .R, .X, .V] := by cases f <;> decide

/-- An opcode has one format at most. -/
theorem eq_of_mem_opcodesOfFormat {f g : Format} {n : Nat} (hf : n ∈ opcodesOfFormat f)
    (hg : n ∈ opcodesOfFormat g) : f = g := by
  have hdisjoint : ∀ f ∈ [Format.Z, .B, .R, .X, .V], ∀ g ∈ [Format.Z, .B, .R, .X, .V],
      ∀ n ∈ opcodesOfFormat f, n ∈ opcodesOfFormat g → f = g := by decide
  exact hdisjoint f (mem_formats f) g (mem_formats g) n hf hg

/-- The must-be-zero bits of a word are those of its format. -/
theorem CmdWord.reservedZero_iff {f : Format} {w : CmdWord}
    (hf : w.toNat / 2 ^ 64 ∈ opcodesOfFormat f) :
    CmdWord.reservedZero w = true ↔ (CmdWord.arg w).toNat < 2 ^ operandBits f := by
  simp only [CmdWord.reservedZero, CmdWord.hasFormat, List.all_eq_true, Bool.or_eq_true,
    Bool.not_eq_true', decide_eq_true_iff, ← CmdWord.toNat_arg]
  constructor
  · intro h
    obtain hnot | hlt := h f (mem_formats f)
    · rw [List.contains_iff_mem.mpr hf] at hnot
      cases hnot
    · exact hlt
  · intro hlt g _
    by_cases hg : w.toNat / 2 ^ 64 ∈ opcodesOfFormat g
    · exact .inr (eq_of_mem_opcodesOfFormat hf hg ▸ hlt)
    · exact .inl (by simpa using hg)

end Sys2Proof

namespace Sys2Proof.Machine

/-- The formats' opcodes are those of the rows of R73. -/
theorem opAssigned_eq_assignedOp (w : CmdWord) :
    CmdWord.opAssigned w = assignedOp (CmdWord.op w) := by
  have hbyte : ∀ op : Byte,
      ([Format.Z, .B, .R, .X, .V].any fun f => (opcodesOfFormat f).contains op.toNat) =
        assignedOp op := by decide
  rw [← hbyte, CmdWord.toNat_op]
  rfl

/-- The mask of a row of R73 keeps the opcode and the must-be-zero bits of the opcode's format. -/
theorem exists_format_of_mem_opcodeRows : ∀ row ∈ opcodeRows, ∃ f ∈ [Format.Z, .B, .R, .X, .V],
    row.1.toNat ∈ opcodesOfFormat f ∧ row.2.2.1 = CmdWord.mk row.1 0#64 ∧
      row.2.2.2 = CmdWord.mk 0xFF#8 (BitVec.allOnes 64 <<< operandBits f) := by decide

/-- A word with an assigned opcode spells a command exactly when its must-be-zero bits are 0 (R77). -/
theorem exists_decode_eq_of_opAssigned {w : CmdWord} (h : CmdWord.opAssigned w = true) :
    ∃ i, decode w = if CmdWord.reservedZero w then .ok i else .error .reservedBits := by
  obtain ⟨row, hrow, hop⟩ := exists_row_of_assignedOp (opAssigned_eq_assignedOp w ▸ h)
  obtain ⟨k, f, hf⟩ := exists_followsRow row hrow
  obtain ⟨fmt, -, hfmt, hmatch, hmask⟩ := exists_format_of_mem_opcodeRows row hrow
  rw [hop, CmdWord.toNat_op] at hfmt
  refine ⟨f (CmdWord.arg w), ?_⟩
  simp only [hf.decode_eq hop, hmatch, hmask, and_mask_eq_match_iff, hop, true_and,
    CmdWord.reservedZero_iff hfmt]

/-- A word that decodes passes the two checks of words, and its fields are those of the command. -/
theorem fields_of_decode_ok {w : CmdWord} {i : Instr} (h : decode w = .ok i) :
    CmdWord.opAssigned w = true ∧ CmdWord.reservedZero w = true ∧
      w.toNat / 2 ^ 64 = i.opcode.toNat ∧ w.toNat % 2 ^ 64 = i.argField.toNat := by
  obtain ⟨-, -, -, hfields⟩ := decodeFollowsMatchAndMask
  obtain ⟨hop, harg⟩ := hfields w i h
  have hassigned : CmdWord.opAssigned w = true := by
    refine Bool.eq_true_of_not_eq_false fun hw => ?_
    rw [decode_of_not_assignedOp (opAssigned_eq_assignedOp w ▸ hw)] at h
    cases h
  obtain ⟨j, hj⟩ := exists_decode_eq_of_opAssigned hassigned
  refine ⟨hassigned, Bool.eq_true_of_not_eq_false fun hw => ?_, ?_, ?_⟩
  · rw [hj, hw] at h
    cases h
  · rw [hop, CmdWord.toNat_op]
  · rw [harg, CmdWord.toNat_arg]

theorem opcode_of_decode_ok {w : CmdWord} {i : Instr} (h : decode w = .ok i) :
    i.opcode = CmdWord.op w := by
  obtain ⟨-, -, hop, -⟩ := fields_of_decode_ok h
  exact BitVec.eq_of_toNat_eq (by rw [CmdWord.toNat_op, hop])

theorem toNat_argField_rdreg (n : Byte) : (Instr.rdreg n).argField.toNat = n.toNat :=
  BitVec.toNat_setWidth_of_le (by decide)

/-- A word spells RDREG of the register number `n` exactly when its fields say so. -/
theorem decode_eq_rdreg_iff {w : CmdWord} {n : Byte} :
    decode w = .ok (.rdreg n) ↔ w.toNat / 2 ^ 64 = 0x02 ∧ w.toNat % 2 ^ 64 = n.toNat := by
  constructor
  · intro h
    obtain ⟨-, -, hop, harg⟩ := fields_of_decode_ok h
    exact ⟨hop, harg.trans (toNat_argField_rdreg n)⟩
  · rintro ⟨hop, harg⟩
    have hop : CmdWord.op w = 0x02#8 := BitVec.eq_of_toNat_eq (by rw [CmdWord.toNat_op, hop]; rfl)
    have harg : (CmdWord.arg w).toNat = n.toNat := by rw [CmdWord.toNat_arg, harg]
    rw [decode, hop, decodeFields_rdreg, decodeByte_eq, harg, if_pos n.isLt, BitVec.ofNat_toNat,
      BitVec.setWidth_eq]

/-! ## What a command does to the fault record (60_exceptions R199 to R202) -/

/-- A command is refused, or raises a cause, or executes and keeps the fault record; in the fault state only
RDREG of an assigned register executes. -/
theorem Effect.fault_cases {s t : State} {i : Instr} (h : Effect s i t) :
    (s.fault = true ∧ t = s.refused) ∨
    (s.fault = false ∧ ∃ c, Raises s i c ∧ t = s.raised i.opcode c.code) ∨
    (t.fault = s.fault ∧ t.fcause = s.fcause ∧ t.fop = s.fop ∧
      (s.fault = true → ∃ n, i = .rdreg n ∧ n.toNat ≤ 0x0B)) := by
  cases h with
  | refused hf => exact .inl ⟨hf, rfl⟩
  | raised hf c hc => exact .inr (.inl ⟨hf, c, hc, rfl⟩)
  | rdreg n r hr =>
    have hn : ¬ 0x0B < n.toNat := fun hn => by simp [(RegName.ofNumber_eq_none n).mpr hn] at hr
    exact .inr (.inr ⟨rfl, rfl, rfl, fun _ => ⟨n, rfl, Nat.not_lt.mp hn⟩⟩)
  | insert _ hf | insertGrow _ hf | remove hf =>
    exact .inr (.inr (by simp [hf]))
  | _ => exact .inr (.inr ⟨rfl, rfl, rfl, fun hfault => by simp_all⟩)

/-! ## What a step does with a command word (60_exceptions R199) -/

section
variable {s : State} {w : CmdWord} {rest : List HostInput}

theorem step_of_decode_ok {i : Instr} (hin : s.inputs = .cmd w :: rest) (hd : decode w = .ok i) :
    step s = exec i { s with inputs := rest } := by
  simp only [step, hin, acceptCommand, hd]

theorem step_of_decode_error {e : Reject} (hin : s.inputs = .cmd w :: rest)
    (hd : decode w = .error e) :
    step s = .next (State.unlessFaulted { s with inputs := rest }
      (State.raise (rejectCause e) (CmdWord.op w))) := by
  simp only [step, hin, acceptCommand, hd]

/-- Outside the fault state a word that spells no command raises its cause. -/
theorem step_raises_of_decode_error {e : Reject} (hin : s.inputs = .cmd w :: rest)
    (hf : s.fault = false) (hd : decode w = .error e) :
    step s = .next (State.raised { s with inputs := rest } (CmdWord.op w) (rejectCause e).code) := by
  have hf' : State.fault { s with inputs := rest } = false := hf
  rw [step_of_decode_error hin hd, State.unlessFaulted_of_not_fault hf', State.raise_eq]

theorem step_of_opAssigned_eq_false (hin : s.inputs = .cmd w :: rest) (hf : s.fault = false)
    (hop : CmdWord.opAssigned w = false) :
    step s = .next (State.raised { s with inputs := rest } (CmdWord.op w) 1#8) :=
  step_raises_of_decode_error hin hf
    (decode_of_not_assignedOp (opAssigned_eq_assignedOp w ▸ hop))

theorem step_of_reservedZero_eq_false (hin : s.inputs = .cmd w :: rest) (hf : s.fault = false)
    (hop : CmdWord.opAssigned w = true) (hres : CmdWord.reservedZero w = false) :
    step s = .next (State.raised { s with inputs := rest } (CmdWord.op w) 2#8) := by
  obtain ⟨i, hd⟩ := exists_decode_eq_of_opAssigned hop
  exact step_raises_of_decode_error hin hf (by rw [hd, hres]; rfl)

/-- RDREG of an assigned register is read in every state (60_exceptions R203). -/
theorem step_of_rdreg_assigned (hin : s.inputs = .cmd w :: rest) (hop : w.toNat / 2 ^ 64 = 0x02)
    (harg : w.toNat % 2 ^ 64 ≤ 0x0B) :
    step s = .next (State.told { s with inputs := rest }
      (dataWord (BitVec.ofNat 64 (regNumber s (w.toNat % 2 ^ 64))))) := by
  obtain ⟨n, hn⟩ : ∃ n : Byte, w.toNat % 2 ^ 64 = n.toNat :=
    ⟨BitVec.ofNat 8 (w.toNat % 2 ^ 64), by rw [BitVec.toNat_ofNat]; omega⟩
  obtain ⟨-, hread⟩ := rdregReadsItsRegister
  obtain ⟨hexec, -⟩ := (hread { s with inputs := rest } n).1 (hn ▸ harg)
  rw [step_of_decode_ok hin (decode_eq_rdreg_iff.mpr ⟨hop, hn⟩), hexec, hn]
  rfl

/-- In the fault state every other word is refused, whether it decodes or not (60_exceptions R202). -/
theorem step_of_refused (hin : s.inputs = .cmd w :: rest) (hf : s.fault = true)
    (hw : ¬ (w.toNat / 2 ^ 64 = 0x02 ∧ w.toNat % 2 ^ 64 ≤ 0x0B)) :
    step s = .next (State.refused { s with inputs := rest }) := by
  cases hd : decode w with
  | error e =>
    have hf' : State.fault { s with inputs := rest } = true := hf
    rw [step_of_decode_error hin hd, State.unlessFaulted_of_fault hf']
  | ok i =>
    obtain ⟨t, ht⟩ := exec_next i { s with inputs := rest }
    rw [step_of_decode_ok hin hd, ht]
    obtain ⟨-, rfl⟩ | ⟨hnot, -⟩ | ⟨-, -, -, hread⟩ := (exec_effect ht).fault_cases
    · rfl
    · exact absurd hf (by simpa using hnot)
    · obtain ⟨n, rfl, hn⟩ := hread hf
      obtain ⟨hop, harg⟩ := decode_eq_rdreg_iff.mp hd
      exact absurd ⟨hop, harg ▸ hn⟩ hw

end

/-- Settles O6: the two ways a word spells no command, told apart by the decoder as by the tables. -/
theorem rejectedWordRaisesItsCause : Obligations.RejectedWordRaisesItsCause := by
  unfold Obligations.RejectedWordRaisesItsCause
  intro s w rest hin hf
  rw [← opAssigned_eq_assignedOp]
  exact ⟨step_of_opAssigned_eq_false hin hf, step_of_reservedZero_eq_false hin hf⟩

/-! ## Commands that need a table or an iteration (60_exceptions R196, R197) -/

theorem exec_itnext (s : State) :
    exec .itnext s = .next (s.unlessFaulted fun s =>
      if !s.tvalid then s.raise .noTable 0x41#8
      else if !s.itact then s.raise .iterInactive 0x41#8
      else
        match s.nextOccupied with
        | some i =>
          State.respond (.data (s.slotRead i).val)
            { s.loadKey (s.slotRead i).key with icur := BitVec.ofNat 32 (i + 1) }
        | none => State.respond .absent { s with icur := s.cap }) := rfl

/-- Settles O34: past the check of the fault state, each of the five commands checks for a table. -/
theorem tableCommandsNeedATable : Obligations.TableCommandsNeedATable := by
  unfold Obligations.TableCommandsNeedATable
  intro s hf ht
  refine ⟨fun v => ?_, ?_, ?_, ?_, ?_⟩
  · rw [exec_insert, State.unlessFaulted_noTable hf ht]
  · rw [exec_get, State.unlessFaulted_noTable hf ht]
  · rw [exec_remove, State.unlessFaulted_noTable hf ht]
  · rw [exec_itstart, State.unlessFaulted_noTable hf ht]
  · rw [exec_itnext, State.unlessFaulted_noTable hf ht]

/-- Settles O35: past its checks of the fault state and of the table, ITNEXT checks for an iteration. -/
theorem itnextNeedsAnIteration : Obligations.ItnextNeedsAnIteration := by
  unfold Obligations.ItnextNeedsAnIteration
  exact fun s => exec_itnext_inactive

/-! ## The checks of commands, in order (60_exceptions R199) -/

section
variable {s : State} {i : Instr}

/-- A command whose check fails raises the cause of that check. -/
theorem exec_of_raises {c : Cause} (hf : s.fault = false) (h : Raises s i c) :
    exec i s = .next (s.raised i.opcode c.code) := by
  cases c with
  | illegalOpcode | reservedBits => exact h.elim
  | badRegister =>
    obtain ⟨n, rfl, hn⟩ := h
    rw [exec_rdreg_unassigned hn, State.unlessFaulted_of_not_fault hf, State.raise_eq]
    rfl
  | keyOverflow =>
    obtain ⟨b, rfl, hfull⟩ := h
    rw [exec_kpush, State.unlessFaulted_of_not_fault hf, if_pos hfull, State.raise_eq]
    rfl
  | noTable =>
    obtain ⟨ht, hi⟩ := h
    obtain ⟨hinsert, hget, hremove, hitstart, hitnext⟩ := tableCommandsNeedATable s hf ht
    obtain ⟨v, rfl⟩ | rfl | rfl | rfl | rfl := hi
    exacts [hinsert v, hget, hremove, hitstart, hitnext]
  | iterInactive =>
    obtain ⟨rfl, ht, ha⟩ := h
    exact exec_itnext_inactive hf ht ha
  | capacityExhausted =>
    obtain ⟨v, rfl, ht, he⟩ := h
    exact exec_insert_exhausts v hf ht he

/-- A command whose checks all pass raises nothing. -/
theorem exec_of_not_raises (hf : s.fault = false) (h : ∀ c, ¬ Raises s i c) :
    ∃ t, exec i s = .next t ∧ t.fault = false := by
  obtain ⟨t, ht⟩ := exec_next i s
  obtain ⟨hfault, -⟩ | ⟨-, c, hc, -⟩ | ⟨hkept, -⟩ := (exec_effect ht).fault_cases
  · simp [hf] at hfault
  · exact absurd hc (h c)
  · exact ⟨t, ht, hkept.trans hf⟩

variable {w : CmdWord}

/-- The last check of R199, after the opcode's, is the model's condition of CapacityExhausted (42_table
R143). -/
theorem and_exhausts_eq (p : Bool) (s : State) :
    (p && !(s.slotRead (home s.cfg (fnvHash s.cfg s.key) s.cap.toNat)).occ
      && decide (3 * s.cap.toNat < 4 * (s.size.toNat + 1))
      && decide (s.cfg.capMax.toNat < newcap s.cap.toNat)) = (p && s.insertExhausts) := by
  cases p <;> rfl

/-- The checks of words come first (R199 (2), R192). -/
theorem firstFailing_of_not_opAssigned (s : State) (h : CmdWord.opAssigned w = false) :
    firstFailing s w = some 1#8 := by
  simp only [firstFailing, checks, h]
  rfl

theorem firstFailing_of_not_reservedZero (s : State) (hop : CmdWord.opAssigned w = true)
    (hres : CmdWord.reservedZero w = false) : firstFailing s w = some 2#8 := by
  simp only [firstFailing, checks, hop, hres]
  rfl

/-- The first check that fails for a command is that of the cause it raises. -/
theorem firstFailing_of_raises {c : Cause} (hd : decode w = .ok i) (h : Raises s i c) :
    firstFailing s w = some c.code := by
  obtain ⟨hassigned, hres, hop, harg⟩ := fields_of_decode_ok hd
  simp only [firstFailing, checks, hassigned, hres, hop, harg, and_exhausts_eq]
  cases c with
  | illegalOpcode | reservedBits => exact h.elim
  | badRegister =>
    obtain ⟨n, rfl, hn⟩ := h
    simp [Instr.opcode, Cause.code, toNat_argField_rdreg, hn]
  | keyOverflow =>
    obtain ⟨b, rfl, hfull⟩ := h
    simp [Instr.opcode, Cause.code, hfull]
  | noTable =>
    obtain ⟨ht, hi⟩ := h
    obtain ⟨v, rfl⟩ | rfl | rfl | rfl | rfl := hi <;> simp [Instr.opcode, Cause.code, ht]
  | iterInactive =>
    obtain ⟨rfl, ht, ha⟩ := h
    simp [Instr.opcode, Cause.code, ht, ha]
  | capacityExhausted =>
    obtain ⟨v, rfl, ht, he⟩ := h
    simp [Instr.opcode, Cause.code, ht, he]

/-- No check fails for a command that raises no cause. -/
theorem firstFailing_of_not_raises (hd : decode w = .ok i) (h : ∀ c, ¬ Raises s i c) :
    firstFailing s w = none := by
  obtain ⟨hassigned, hres, hop, harg⟩ := fields_of_decode_ok hd
  have htable (hi : (∃ v, i = .insert v) ∨ i = .get ∨ i = .remove ∨ i = .itstart ∨ i = .itnext) :
      s.tvalid = true := Bool.eq_true_of_not_eq_false fun ht => h .noTable ⟨ht, hi⟩
  simp only [firstFailing, checks, hassigned, hres, hop, harg, and_exhausts_eq]
  cases i with
  | rdreg n =>
    have hn : ¬ 0x0B < n.toNat := fun hn => h .badRegister ⟨n, rfl, hn⟩
    simp [Instr.opcode, toNat_argField_rdreg, hn]
  | kpush b =>
    have hroom : s.klen ≠ s.cfg.keyMax := fun hfull => h .keyOverflow ⟨b, rfl, hfull⟩
    simp [Instr.opcode, hroom]
  | insert v =>
    have ht := htable (.inl ⟨v, rfl⟩)
    have hfits : s.insertExhausts = false :=
      Bool.eq_false_of_not_eq_true fun he => h .capacityExhausted ⟨v, rfl, ht, he⟩
    simp [Instr.opcode, ht, hfits]
  | get | remove | itstart => simp [Instr.opcode, htable]
  | itnext =>
    have ht := htable (by simp)
    have ha : s.itact = true :=
      Bool.eq_true_of_not_eq_false fun ha => h .iterInactive ⟨rfl, ht, ha⟩
    simp [Instr.opcode, ht, ha]
  | _ => rfl

end

/-- Settles O9: in the fault state by the one command it lets pass; outside it by the two checks of words, then
by whether the command raises a cause. -/
theorem checksGoInOrder : Obligations.ChecksGoInOrder := by
  unfold Obligations.ChecksGoInOrder
  intro s w rest hin
  refine ⟨fun hf => ?_, fun hf => ?_⟩
  · split
    · next hread => exact step_of_rdreg_assigned hin hread.1 hread.2
    · next hother => exact step_of_refused hin hf hother
  · cases hop : CmdWord.opAssigned w with
    | false =>
      rw [firstFailing_of_not_opAssigned s hop]
      exact step_of_opAssigned_eq_false hin hf hop
    | true =>
      cases hres : CmdWord.reservedZero w with
      | false =>
        rw [firstFailing_of_not_reservedZero s hop hres]
        exact step_of_reservedZero_eq_false hin hf hop hres
      | true =>
        obtain ⟨i, hd⟩ := exists_decode_eq_of_opAssigned hop
        rw [hres, if_pos rfl] at hd
        have hf' : State.fault { s with inputs := rest } = false := hf
        have hfirst : firstFailing s w = firstFailing { s with inputs := rest } w := rfl
        rw [step_of_decode_ok hin hd, hfirst]
        by_cases hraises : ∃ c, Raises { s with inputs := rest } i c
        · obtain ⟨c, hc⟩ := hraises
          rw [firstFailing_of_raises hd hc, exec_of_raises hf' hc, opcode_of_decode_ok hd]
        · rw [not_exists] at hraises
          rw [firstFailing_of_not_raises hd hraises]
          obtain ⟨t, ht, htf⟩ := exec_of_not_raises hf' hraises
          exact ⟨i, t, hd, ht, ht, htf⟩

/-! ## The fault state and reset (60_exceptions R200 to R204) -/

/-- A word is RDREG of an assigned register, field by field or as numbers (30_encoding R70, R71). -/
theorem rdregFields_iff (w : CmdWord) :
    (CmdWord.op w = 0x02#8 ∧ (CmdWord.arg w).extractLsb' 8 56 = 0#56 ∧
        ((CmdWord.arg w).extractLsb' 0 8).toNat ≤ 0x0B) ↔
      w.toNat / 2 ^ 64 = 0x02 ∧ w.toNat % 2 ^ 64 ≤ 0x0B := by
  have hlt := (CmdWord.arg w).isLt
  simp only [← BitVec.toNat_inj, BitVec.extractLsb'_toNat, Nat.shiftRight_eq_div_pow,
    BitVec.toNat_ofNat, ← CmdWord.toNat_op, ← CmdWord.toNat_arg]
  omega

theorem toNat_rdregField {w : CmdWord} (h : (CmdWord.arg w).extractLsb' 8 56 = 0#56) :
    ((CmdWord.arg w).extractLsb' 0 8).toNat = w.toNat % 2 ^ 64 := by
  have hlt := (CmdWord.arg w).isLt
  simp only [← BitVec.toNat_inj, BitVec.extractLsb'_toNat, Nat.shiftRight_eq_div_pow,
    BitVec.toNat_ofNat] at h ⊢
  rw [← CmdWord.toNat_arg]
  omega

/-- Settles O10: the words of R202 are those that are not RDREG of an assigned register. -/
theorem faultStateRefusesCommands : Obligations.FaultStateRefusesCommands := by
  unfold Obligations.FaultStateRefusesCommands
  intro s w rest hin hf hw
  rw [rdregFields_iff] at hw
  exact step_of_refused hin hf hw

/-- Settles O11: RDREG of an assigned register makes no check of the fault state. -/
theorem faultStateStillReadsRegisters : Obligations.FaultStateStillReadsRegisters := by
  unfold Obligations.FaultStateStillReadsRegisters
  intro s w rest hin _ hop hzero hreg
  obtain ⟨hop', harg⟩ := (rdregFields_iff w).mp ⟨hop, hzero, hreg⟩
  rw [toNat_rdregField hzero]
  exact step_of_rdreg_assigned hin hop' harg

/-- Settles O12: of all a step can do from the fault state, only reset writes the fault record. -/
theorem onlyResetLeavesTheFaultState : Obligations.OnlyResetLeavesTheFaultState := by
  unfold Obligations.OnlyResetLeavesTheFaultState
  intro s t hf h
  constructor
  · rintro ⟨hrst, hcmdThenRst⟩
    obtain ⟨-, rfl⟩ | ⟨rest, hin | ⟨w, hin⟩, -⟩ | ⟨w, rest, -, hcmd⟩ := step_cases h
    · exact ⟨hf, rfl, rfl⟩
    · exact absurd hin (hrst rest)
    · exact absurd hin (hcmdThenRst w rest)
    · obtain ⟨e, -, ⟨-, rfl⟩ | ⟨hnot, -⟩⟩ | ⟨i, -, -, heff⟩ := hcmd
      · exact ⟨hf, rfl, rfl⟩
      · simp [hf] at hnot
      · obtain ⟨-, rfl⟩ | ⟨hnot, -⟩ | ⟨hfault, hcause, hop, -⟩ := heff.fault_cases
        · exact ⟨hf, rfl, rfl⟩
        · simp [hf] at hnot
        · exact ⟨hfault.trans hf, hcause, hop⟩
  · intro hin
    have hreset : ∃ r : State, step s = .next r.assertReset := by
      obtain ⟨rest, hin⟩ | ⟨w, rest, hin⟩ := hin <;>
        exact ⟨{ s with inputs := rest }, by simp only [step, hin]⟩
    obtain ⟨r, hr⟩ := hreset
    obtain rfl := outcome_next h hr
    exact ⟨rfl, rfl, rfl, rfl⟩

/-- Settles O13: outside the fault state only a rejected word and a command that raises a cause end in it,
and both write the record alone. -/
theorem faultChangesOnlyItsRecord : Obligations.FaultChangesOnlyItsRecord := by
  unfold Obligations.FaultChangesOnlyItsRecord
  intro s t w rest hin hf h ht
  cases hd : decode w with
  | error e =>
    obtain rfl := outcome_next h (step_raises_of_decode_error hin hf hd)
    exact ⟨rejectCause e, rfl⟩
  | ok i =>
    rw [step_of_decode_ok hin hd] at h
    obtain ⟨hfault, -⟩ | ⟨-, c, -, rfl⟩ | ⟨hkept, -⟩ := (exec_effect h).fault_cases
    · simp [hf] at hfault
    · exact ⟨c, by rw [opcode_of_decode_ok hd]; rfl⟩
    · simp [hf, ht] at hkept

end Sys2Proof.Machine

namespace Sys2Proof

/-! ## The operand of an encoding (30_encoding R71, R72) -/

theorem decodeByte_setWidth (f : Byte → Instr) (b : Byte) :
    decodeByte f (b.setWidth 64) = .ok (f b) := by
  have hb : (b.setWidth 64).toNat = b.toNat := BitVec.toNat_setWidth_of_le (by decide)
  rw [decodeByte_eq, hb, if_pos b.isLt, BitVec.ofNat_toNat, BitVec.setWidth_eq]

theorem decodeX_setWidth (f : BitVec 16 → Instr) (x : BitVec 16) :
    decodeX f (x.setWidth 64) = .ok (f x) := by
  have hx : (x.setWidth 64).toNat = x.toNat := BitVec.toNat_setWidth_of_le (by decide)
  rw [decodeX_eq, hx, if_pos x.isLt, BitVec.ofNat_toNat, BitVec.setWidth_eq]

/-- Settles O2: the fields of an encoding are the command's opcode, whose row names its format, and its
operand widened, which the format's decoder cuts back. -/
theorem everyCommandRoundTrips : Obligations.EveryCommandRoundTrips := by
  unfold Obligations.EveryCommandRoundTrips
  intro i
  rw [encode, decode_mk]
  cases i with
  | rdreg b => exact decodeByte_setWidth .rdreg b
  | habsorb b => exact decodeByte_setWidth .habsorb b
  | kpush b => exact decodeByte_setWidth .kpush b
  | kread x => exact decodeX_setWidth .kread x
  | _ => rfl

/-- Settles O3: a word that decodes has the command's fields, and a word is its two fields. -/
theorem everyDecodedWordIsItsEncoding : Obligations.EveryDecodedWordIsItsEncoding := by
  unfold Obligations.EveryDecodedWordIsItsEncoding
  intro w i h
  obtain ⟨-, -, -, hfields⟩ := Machine.decodeFollowsMatchAndMask
  obtain ⟨hop, harg⟩ := hfields w i h
  rw [encode, hop, harg, CmdWord.mk_op_arg]

/-- Settles O1: each of the fourteen words is the encoding of its command. -/
theorem specWordsDecode : Obligations.SpecWordsDecode := by
  unfold Obligations.SpecWordsDecode
  have hword {w : CmdWord} {i : Instr} (h : w = encode i) : decode w = .ok i :=
    h ▸ everyCommandRoundTrips i
  and_intros <;> exact hword (by decide)

end Sys2Proof

namespace Sys2Proof.Machine

/-! ## Counting occupied slots (10_state R31, R42 (d)) -/

/-- The number of occupied records among the first `n` of a sequence of slots; `State.occupied` counts
the table with it. -/
def occCount (f : Nat → Slot) (n : Nat) : Nat := (List.range n).countP fun i => (f i).occ

theorem State.occupied_eq_occCount (s : State) : s.occupied = occCount s.slotRead s.cap.toNat := rfl

/-- The count as the size of a set of indices. -/
theorem occCount_eq_card (f : Nat → Slot) (n : Nat) :
    occCount f n = ((Finset.range n).filter fun i => (f i).occ = true).card := by
  rw [occCount, List.countP_eq_length_filter]
  simp only [Finset.card, Finset.filter, Finset.range, Multiset.range, Multiset.filter_coe,
    Multiset.coe_card, Bool.decide_eq_true]

theorem occCount_congr {f g : Nat → Slot} {n : Nat} (h : ∀ i, i < n → (g i).occ = (f i).occ) :
    occCount g n = occCount f n :=
  List.countP_congr fun i hi => by rw [h i (List.mem_range.mp hi)]

theorem occCount_eq_zero {f : Nat → Slot} {n : Nat} (h : ∀ i, i < n → f i = Slot.empty) :
    occCount f n = 0 :=
  List.countP_eq_zero.mpr fun i hi => by simp [h i (List.mem_range.mp hi), Slot.empty]

/-- Filling one empty slot counts one more. -/
theorem occCount_fill {f g : Nat → Slot} {n a : Nat} (ha : a < n) (hf : (f a).occ = false)
    (hg : (g a).occ = true) (h : ∀ i, i ≠ a → g i = f i) : occCount g n = occCount f n + 1 := by
  have hset : ((Finset.range n).filter fun i => (g i).occ = true) =
      insert a ((Finset.range n).filter fun i => (f i).occ = true) := by
    ext i
    by_cases hi : i = a
    · simp [hi, ha, hg]
    · simp [hi, h i hi]
  rw [occCount_eq_card, occCount_eq_card, hset, Finset.card_insert_of_notMem (by simp [hf])]

/-- The indices of the records a rehash leaves are the new homes of the old records (42_table R146,
R147). -/
theorem filter_survivor_eq_image (cfg : Config) (old : Nat → Slot) (c : Nat) {nc : Nat} (hnc : 0 < nc) :
    ((Finset.range nc).filter fun j => (survivor cfg old c nc j).occ = true) =
      ((Finset.range c).filter fun i => (old i).occ = true).image fun i =>
        home cfg (fnvHash cfg (old i).key) nc := by
  ext j
  simp only [Finset.mem_filter, Finset.mem_range, Finset.mem_image]
  obtain ⟨hempty, hnone⟩ | ⟨i, hi, hsurv, hocc, hhome, -⟩ := survivor_cases cfg old c nc j
  · rw [hempty]
    constructor
    · rintro ⟨-, h⟩
      cases h
    · rintro ⟨i, ⟨hi, hocc⟩, hhome⟩
      exact absurd hhome (hnone i hi hocc)
  · rw [hsurv]
    exact ⟨fun _ => ⟨i, ⟨hi, hocc⟩, hhome⟩, fun _ => ⟨hhome ▸ home_lt _ _ hnc, hocc⟩⟩

/-- A rehash does not make records (42_table R149). -/
theorem occCount_survivor_le (cfg : Config) (old : Nat → Slot) (c : Nat) {nc : Nat} (hnc : 0 < nc) :
    occCount (survivor cfg old c nc) nc ≤ occCount old c := by
  rw [occCount_eq_card, occCount_eq_card, filter_survivor_eq_image cfg old c hnc]
  exact Finset.card_image_le

/-! ## The slots of a table with the invariant (10_state R42 (e), (f), 42_table R148) -/

/-- What the invariant says of the record at index `i` of a table of `c` slots. -/
structure SlotOk (cfg : Config) (c i : Nat) (r : Slot) : Prop where
  empty : r.occ = false → r = Slot.empty
  key_len : r.key.length ≤ cfg.keyMax.toNat
  placed : r.occ = true → home cfg (fnvHash cfg r.key) c = i

theorem slotOk_empty (cfg : Config) (c i : Nat) : SlotOk cfg c i Slot.empty where
  empty _ := rfl
  key_len := Nat.zero_le _
  placed := nofun

/-- What a rehash leaves is in order whenever the old records were: a record is at its new home. -/
theorem slotOk_survivor {cfg : Config} {old : Nat → Slot} {c : Nat}
    (h : ∀ i, i < c → SlotOk cfg c i (old i)) (nc j : Nat) :
    SlotOk cfg nc j (survivor cfg old c nc j) := by
  obtain ⟨hempty, -⟩ | ⟨i, hi, hsurv, -, hhome, -⟩ := survivor_cases cfg old c nc j
  · rw [hempty]
    exact slotOk_empty cfg nc j
  · rw [hsurv]
    exact { h i hi with placed := fun _ => hhome }

/-- Both banks are in canonical form and list no index from `n` up. -/
def State.BanksOk (n : Nat) (s : State) : Prop :=
  ∀ b, Memory.wf Slot.unlisted (s.bankMem b) = true ∧ Memory.below n (s.bankMem b)

/-- The part of the invariant about a table that has been constructed. -/
structure State.TableInv (s : State) : Prop where
  cap_growth : ∃ n, s.cap.toNat = growth n
  cap_bounds : 127 ≤ s.cap.toNat ∧ s.cap.toNat ≤ s.cfg.capMax.toNat
  load : 4 * s.size.toNat ≤ 3 * s.cap.toNat
  size_ge : s.occupied ≤ s.size.toNat
  slots : ∀ i, i < s.cap.toNat → SlotOk s.cfg s.cap.toNat i (s.slotRead i)
  banks : s.BanksOk s.cfg.capMax.toNat

theorem State.Inv.slotOk {s : State} (h : s.Inv) {i : Nat} (hi : i < s.cap.toNat) :
    SlotOk s.cfg s.cap.toNat i (s.slotRead i) where
  empty := h.empty_slots i hi
  key_len := h.key_len i hi
  placed := h.placed i hi

theorem State.Inv.tableInv {s : State} (h : s.Inv) (ht : s.tvalid = true) : s.TableInv where
  cap_growth := h.cap_growth ht
  cap_bounds := h.cap_bounds ht
  load := h.load ht
  size_ge := h.size_ge ht
  slots _ := h.slotOk
  banks := h.slots_wf

/-- A command that leaves the parameters, the key buffer and the fault record, and a table in order with
no active iteration, keeps the invariant. -/
theorem State.Inv.of_tableInv {s t : State} (h : s.Inv) (hcfg : t.cfg = s.cfg)
    (hkeybuf : t.keybuf = s.keybuf) (hklen : t.klen = s.klen) (hfault : t.fault = s.fault)
    (hfcause : t.fcause = s.fcause) (hfop : t.fop = s.fop) (hh : t.h = s.h ∨ t.h = s.keyDigest)
    (htvalid : t.tvalid = true) (hitact : t.itact = false) (htable : t.TableInv) : t.Inv where
  cfg_wf := hcfg ▸ h.cfg_wf
  itact_tvalid _ := htvalid
  cap_growth _ := htable.cap_growth
  cap_bounds _ := htable.cap_bounds
  cap_zero hnot := by simp [htvalid] at hnot
  load _ := htable.load
  size_ge _ := htable.size_ge
  empty_slots i hi := (htable.slots i hi).empty
  klen_le := by rw [hklen, hcfg]; exact h.klen_le
  key_len i hi := (htable.slots i hi).key_len
  no_fault := by rw [hfault, hfcause, hfop]; exact h.no_fault
  fault_cause := by rw [hfault, hfcause]; exact h.fault_cause
  h_range := by
    rw [hcfg]
    obtain hh | hh := hh <;> rw [hh]
    · exact h.h_range
    · exact fun hb => fnvHash_ne_allOnes hb _
  icur_le hact := by simp [hitact] at hact
  placed i hi := (htable.slots i hi).placed
  keybuf_wf := by rw [hkeybuf, hcfg]; exact h.keybuf_wf
  slots_wf := htable.banks

theorem State.Inv.length_key_le {s : State} (h : s.Inv) : s.key.length ≤ s.cfg.keyMax.toNat :=
  s.length_key.trans_le h.klen_le

end Sys2Proof.Machine

namespace Sys2Proof.Machine

/-! ## The table after each of the commands that write it -/

theorem State.occupied_eq_zero_of_cap {s : State} (h : s.cap = 0#32) : s.occupied = 0 := by
  rw [State.occupied, h]
  rfl

section
variable {s : State} (v : Word)

theorem State.homeIndex_lt (hcap : 0 < s.cap.toNat) : s.homeIndex < s.cap.toNat := home_lt _ _ hcap

theorem State.insertFills_iff : s.insertFills = true ↔ (s.slotRead s.homeIndex).occ = false := by
  rw [State.insertFills, Bool.not_eq_true']

/-- The pair of an INSERT goes to the home slot of its key. -/
theorem State.slotOk_storePair (hkey : s.key.length ≤ s.cfg.keyMax.toNat)
    (h : ∀ i, i < s.cap.toNat → SlotOk s.cfg s.cap.toNat i (s.slotRead i)) (i : Nat)
    (hi : i < s.cap.toNat) : SlotOk s.cfg s.cap.toNat i ((s.storePair v).slotRead i) := by
  rw [State.storePair_slotRead]
  split
  · next hhome => exact { empty := nofun, key_len := hkey, placed := fun _ => hhome.symm }
  · exact h i hi

/-- An INSERT that fills counts one more (42_table R140). -/
theorem State.occupied_storePair (hcap : 0 < s.cap.toNat) :
    (s.storePair v).occupied = if s.insertFills then s.occupied + 1 else s.occupied := by
  rw [State.occupied_eq_occCount, State.occupied_eq_occCount, State.storePair_cap]
  split
  · next hfills =>
    refine occCount_fill (State.homeIndex_lt hcap) (State.insertFills_iff.mp hfills) ?_ fun i hi => ?_
    · rw [State.storePair_slotRead, if_pos rfl]
    · rw [State.storePair_slotRead, if_neg hi]
  · next hfull =>
    have hocc : (s.slotRead s.homeIndex).occ = true := by simpa [State.insertFills_iff] using hfull
    refine occCount_congr fun i _ => ?_
    rw [State.storePair_slotRead]
    split
    · next hi => rw [hi, hocc]
    · rfl

/-- `SIZE` counts the fill without leaving its 32 bits while the load stays in bounds (42_table R157). -/
theorem State.toNat_size_storePair (hload : 4 * s.size.toNat ≤ 3 * s.cap.toNat) :
    (s.storePair v).size.toNat = if s.insertFills then s.size.toNat + 1 else s.size.toNat := by
  rw [State.storePair_size]
  split
  · have := s.cap.isLt
    rw [BitVec.toNat_ofNat]
    omega
  · rfl

theorem State.BanksOk.storePair {n : Nat} (hcap : 0 < s.cap.toNat) (hn : s.cap.toNat ≤ n)
    (h : s.BanksOk n) : (s.storePair v).BanksOk n := fun b => by
  obtain ⟨hwf, hbelow⟩ := h s.bank
  rw [State.storePair_bankMem]
  split
  · exact ⟨Memory.write_wf _ _ _ hwf,
      Memory.write_below _ ((State.homeIndex_lt hcap).trans_le hn) _ hbelow⟩
  · exact h b

/-- The new capacity fits its register (42_table R134, R143). -/
theorem State.toNat_cap_resize (hc : newcap s.cap.toNat ≤ s.cfg.capMax.toNat) :
    s.resize.cap.toNat = newcap s.cap.toNat := by
  rw [State.resize_cap, BitVec.toNat_ofNat, Nat.mod_eq_of_lt (hc.trans_lt s.cfg.capMax.isLt)]

theorem State.resize_slotRead_of_lt {j : Nat} (hj : j < newcap s.cap.toNat) :
    s.resize.slotRead j = survivor s.cfg s.slotRead s.cap.toNat (newcap s.cap.toNat) j := by
  rw [State.resize_slotRead, if_pos hj]

theorem State.occupied_resize (hc : newcap s.cap.toNat ≤ s.cfg.capMax.toNat) :
    s.resize.occupied =
      occCount (survivor s.cfg s.slotRead s.cap.toNat (newcap s.cap.toNat)) (newcap s.cap.toNat) := by
  rw [State.occupied_eq_occCount, State.toNat_cap_resize hc]
  exact occCount_congr fun i hi => by rw [State.resize_slotRead_of_lt hi]

theorem State.BanksOk.resize {n : Nat} (hcap : 0 < newcap s.cap.toNat) (hn : newcap s.cap.toNat ≤ n)
    (h : s.BanksOk n) : s.resize.BanksOk n := fun b => by
  obtain ⟨hwf, hbelow⟩ := h (!s.bank)
  rw [State.resize_bankMem]
  split
  · exact ⟨State.rehash_wf _ _ hwf, State.rehash_below _ hcap hn hbelow⟩
  · exact h b

/-- An INSERT that does not grow the table leaves its load in bounds: that is the comparison it makes. -/
theorem State.load_storePair (hload : 4 * s.size.toNat ≤ 3 * s.cap.toNat)
    (hg : s.insertGrows = false) : 4 * (s.storePair v).size.toNat ≤ 3 * (s.storePair v).cap.toNat := by
  rw [State.toNat_size_storePair v hload, State.storePair_cap]
  split
  · next hfills =>
    refine Nat.not_lt.mp fun hover => ?_
    have hgrows := (State.insertGrows_iff s).mpr ⟨State.insertFills_iff.mp hfills, hover⟩
    simp [hg] at hgrows
  · exact hload

/-- A table that an INSERT does not grow stays in order. -/
theorem State.TableInv.storePair (h : s.TableInv) (hkey : s.key.length ≤ s.cfg.keyMax.toNat)
    (hg : s.insertGrows = false) : (s.storePair v).TableInv := by
  obtain ⟨hgrowth, ⟨hmin, hmax⟩, hload, hsize, hslots, hwf⟩ := h
  refine ⟨by simpa using hgrowth, by simpa using ⟨hmin, hmax⟩, State.load_storePair v hload hg, ?_, ?_, ?_⟩
  · rw [State.toNat_size_storePair v hload, State.occupied_storePair v (by omega)]
    split <;> omega
  · simpa using State.slotOk_storePair v hkey hslots
  · simpa using State.BanksOk.storePair v (by omega) hmax hwf

section
variable (hload : 4 * s.size.toNat ≤ 3 * s.cap.toNat) (hg : s.insertGrows = true)
  (hc : newcap s.cap.toNat ≤ s.cfg.capMax.toNat)

include hc in
theorem State.toNat_cap_resize_storePair : (s.storePair v).resize.cap.toNat = newcap s.cap.toNat := by
  rw [State.toNat_cap_resize (by simpa using hc), State.storePair_cap]

include hload hg in
theorem State.toNat_size_resize_storePair : (s.storePair v).resize.size.toNat = s.size.toNat + 1 := by
  obtain ⟨hocc, -⟩ := (State.insertGrows_iff s).mp hg
  rw [State.resize_size, State.toNat_size_storePair v hload, if_pos (State.insertFills_iff.mpr hocc)]

include hload hg hc in
/-- One more pair fits after one resize (42_table R150). -/
theorem State.load_resize_storePair (hmin : 127 ≤ s.cap.toNat) :
    4 * (s.storePair v).resize.size.toNat ≤ 3 * (s.storePair v).resize.cap.toNat := by
  have := newcap_ge s.cap.toNat
  rw [State.toNat_size_resize_storePair v hload hg, State.toNat_cap_resize_storePair v hc]
  omega

end

/-- A table that an INSERT grows is in order after the resize. -/
theorem State.TableInv.resize_storePair (h : s.TableInv) (hkey : s.key.length ≤ s.cfg.keyMax.toNat)
    (hg : s.insertGrows = true) (hc : newcap s.cap.toNat ≤ s.cfg.capMax.toNat) :
    (s.storePair v).resize.TableInv := by
  obtain ⟨⟨n, hn⟩, ⟨hmin, hmax⟩, hload, hsize, hslots, hwf⟩ := h
  have hgrow := lt_newcap (c := s.cap.toNat) (by omega)
  have hcap := State.toNat_cap_resize_storePair v hc
  have hsize' := State.toNat_size_resize_storePair v hload hg
  have hcfg : (s.storePair v).resize.cfg = s.cfg := by simp
  refine ⟨⟨n + 1, by rw [hcap, hn]; rfl⟩, by rw [hcap, hcfg]; omega,
    State.load_resize_storePair v hload hg hc hmin, ?_, fun j hj => ?_, ?_⟩
  · calc (s.storePair v).resize.occupied
        ≤ (s.storePair v).occupied := by
          rw [State.occupied_resize (by simpa using hc)]
          exact occCount_survivor_le _ _ _ (by rw [State.storePair_cap]; omega)
      _ ≤ s.occupied + 1 := by rw [State.occupied_storePair v (by omega)]; split <;> omega
      _ ≤ (s.storePair v).resize.size.toNat := by omega
  · rw [hcap] at hj
    rw [hcap, hcfg, State.resize_storePair_slotRead, if_pos hj]
    exact slotOk_survivor (State.slotOk_storePair v hkey hslots) _ _
  · rw [hcfg]
    refine State.BanksOk.resize ?_ ?_ (State.BanksOk.storePair v (by omega) hmax hwf) <;>
      rw [State.storePair_cap] <;> omega

/-- A REMOVE that removes counts one slot less (42_table R155). -/
theorem State.occupied_clearHome (hcap : 0 < s.cap.toNat)
    (hocc : (s.slotRead s.homeIndex).occ = true) : s.occupied = s.clearHome.occupied + 1 := by
  rw [State.occupied_eq_occCount, State.occupied_eq_occCount, State.clearHome_cap]
  refine occCount_fill (State.homeIndex_lt hcap) ?_ hocc fun i hi => ?_
  · rw [State.clearHome_slotRead, if_pos rfl]
    rfl
  · rw [State.clearHome_slotRead, if_neg hi]

/-- `SIZE` counts the removal without leaving its 32 bits when it is not 0 (42_table R157). -/
theorem State.toNat_size_clearHome (h : 1 ≤ s.size.toNat) :
    s.clearHome.size.toNat + 1 = s.size.toNat := by
  rw [State.clearHome_size, BitVec.toNat_sub_of_le (show 1#32 ≤ s.size from h)]
  exact Nat.sub_add_cancel h

/-- A matching home slot is occupied. -/
theorem Slot.occ_of_holds {r : Slot} {k : Key} (h : r.holds k = true) : r.occ = true :=
  (Bool.and_eq_true_iff.mp h).1

theorem State.TableInv.clearHome (h : s.TableInv) (hm : (s.slotRead s.homeIndex).holds s.key = true) :
    s.clearHome.TableInv := by
  obtain ⟨hgrowth, ⟨hmin, hmax⟩, hload, hsize, hslots, hwf⟩ := h
  have hcount := State.occupied_clearHome (by omega) (Slot.occ_of_holds hm)
  have hsize' := State.toNat_size_clearHome (s := s) (by omega)
  refine ⟨by simpa using hgrowth, by simpa using ⟨hmin, hmax⟩, ?_, by omega, fun i hi => ?_, fun b => ?_⟩
  · rw [State.clearHome_cap]
    omega
  · rw [State.clearHome_cfg, State.clearHome_cap, State.clearHome_slotRead]
    split
    · exact slotOk_empty ..
    · exact hslots i (by simpa using hi)
  · obtain ⟨hwf', hbelow⟩ := hwf s.bank
    rw [State.clearHome_cfg, State.clearHome_bankMem]
    split
    · have hhome := State.homeIndex_lt (s := s) (by omega)
      exact ⟨Memory.write_wf _ _ _ hwf', Memory.write_below _ (hhome.trans_le hmax) _ hbelow⟩
    · exact hwf b

end

end Sys2Proof.Machine

namespace Sys2Proof.Machine

/-! ## The invariant after reset (10_state R41, R42) -/

theorem inv_resetWith {c : Config} (hc : c.wf = true) : (State.resetWith c).Inv where
  cfg_wf := hc
  itact_tvalid := nofun
  cap_growth := nofun
  cap_bounds := nofun
  cap_zero _ := rfl
  load := nofun
  size_ge := nofun
  empty_slots _ hi := absurd hi (Nat.not_lt_zero _)
  klen_le := Nat.zero_le _
  key_len _ hi := absurd hi (Nat.not_lt_zero _)
  no_fault _ := ⟨rfl, rfl⟩
  fault_cause := nofun
  h_range hb := hb
  icur_le := nofun
  placed _ hi := absurd hi (Nat.not_lt_zero _)
  keybuf_wf := ⟨rfl, nofun⟩
  slots_wf b := by cases b <;> exact ⟨rfl, nofun⟩

/-- Settles O57: after reset there is no table, no iteration and no fault, and the memories list
nothing. -/
theorem resetHasTheInvariant : Obligations.ResetHasTheInvariant := by
  unfold Obligations.ResetHasTheInvariant
  exact ⟨fun _ => inv_resetWith, inv_resetWith (by decide)⟩

/-! ## Each step keeps the invariant -/

section
variable {s : State}

/-- The invariant speaks neither of the inputs nor of the responses. -/
theorem State.Inv.withInputs (h : s.Inv) (is : List HostInput) : State.Inv { s with inputs := is } :=
  { h with }

theorem State.Inv.told (h : s.Inv) (r : RspWord) : (s.told r).Inv := { h with }

theorem State.Inv.assertReset (h : s.Inv) : s.assertReset.Inv :=
  { (inv_resetWith h.cfg_wf).withInputs s.inputs with }

theorem Cause.code_bounds (c : Cause) : 1 ≤ c.code.toNat ∧ c.code.toNat ≤ 7 := by cases c <;> decide

theorem State.Inv.raised (h : s.Inv) (op : Byte) (c : Cause) : (s.raised op c.code).Inv :=
  { h with
    no_fault := nofun
    fault_cause := fun _ => c.code_bounds }

theorem State.Inv.withH (h : s.Inv) {x : Word}
    (hx : s.cfg.basis ≠ BitVec.allOnes 64 → x ≠ BitVec.allOnes 64) : State.Inv { s with h := x } :=
  { h with h_range := hx }

theorem State.Inv.withDigest (h : s.Inv) : State.Inv { s with h := s.keyDigest } :=
  h.withH fun hb => fnvHash_ne_allOnes hb s.key

theorem fnvStep_ne_allOnes (c : Config) (h : Word) (b : Byte) : fnvStep c h b ≠ BitVec.allOnes 64 :=
  fun he => absurd (toNat_fnvStep_lt c h b) (by rw [he]; decide)

theorem State.Inv.emptyKey (h : s.Inv) : State.Inv { s with klen := 0#16 } :=
  { h with klen_le := Nat.zero_le _ }

theorem State.Inv.pushKeyByte (h : s.Inv) (b : Byte) (hroom : s.klen ≠ s.cfg.keyMax) :
    (s.pushKeyByte b).Inv := by
  have hlt : s.klen.toNat < s.cfg.keyMax.toNat :=
    lt_of_le_of_ne h.klen_le fun he => hroom (BitVec.eq_of_toNat_eq he)
  obtain ⟨hwf, hbelow⟩ := h.keybuf_wf
  exact { h with
    klen_le := by
      show (s.pushKeyByte b).klen.toNat ≤ s.cfg.keyMax.toNat
      rw [State.pushKeyByte_eq, BitVec.toNat_ofNat]
      exact (Nat.mod_le _ _).trans hlt
    keybuf_wf := ⟨Memory.write_wf _ _ _ hwf, Memory.write_below _ hlt _ hbelow⟩ }

/-- Every slot of a new table is empty (42_table R136). -/
theorem read_fill_empty {m m₀ : Memory Slot} (hm : m = Memory.fill Slot.unlisted Slot.empty capInit m₀)
    {i : Nat} (hi : i < 127) : Memory.read Slot.unlisted m i = Slot.empty := by
  rw [hm, Memory.read_fill, capInit, if_pos hi]

theorem State.occupied_construct {t : State} {m₀ : Memory Slot}
    (hm : t.slot0 = Memory.fill Slot.unlisted Slot.empty capInit m₀) (hbank : t.bank = false)
    (hcap : t.cap = BitVec.ofNat 32 capInit) : t.occupied = 0 := by
  rw [State.occupied_eq_occCount, hcap]
  refine occCount_eq_zero fun i hi => ?_
  rw [State.slotRead, hbank]
  exact read_fill_empty hm hi

theorem State.Inv.construct (h : s.Inv) {m : Memory Slot}
    (hm : m = Memory.fill Slot.unlisted Slot.empty capInit s.slot0) : State.Inv { s with
      bank := false, slot0 := m, cap := BitVec.ofNat 32 capInit, size := 0#32, icur := 0#32,
      tvalid := true, itact := false } := by
  have hcapMax : 127 ≤ s.cfg.capMax.toNat := by
    have hcfg := h.cfg_wf
    rw [Config.wf, Bool.and_eq_true, decide_eq_true_iff, decide_eq_true_iff] at hcfg
    exact hcfg.2
  have hwf : Memory.wf Slot.unlisted m = true ∧ Memory.below s.cfg.capMax.toNat m := by
    obtain ⟨hwf, hbelow⟩ := h.slots_wf false
    exact hm ▸ ⟨Memory.fill_wf _ _ _ hwf, Memory.fill_below _ hcapMax _ hbelow⟩
  refine h.of_tableInv rfl rfl rfl rfl rfl rfl (.inl rfl) rfl rfl
    ⟨⟨0, rfl⟩, ⟨le_refl 127, hcapMax⟩, Nat.zero_le _, ?_, fun i hi => ?_, fun b => ?_⟩
  · exact (State.occupied_construct hm rfl rfl).le
  · exact (congrArg (SlotOk s.cfg 127 i) (read_fill_empty hm hi)).mpr (slotOk_empty s.cfg 127 i)
  · cases b with
    | false => exact hwf
    | true => exact h.slots_wf true

theorem State.Inv.storePair (h : s.Inv) (v : Word) (ht : s.tvalid = true)
    (hg : s.insertGrows = false) : (s.storePair v).Inv :=
  h.of_tableInv (by simp) (by simp) (by simp) (by simp) (by simp) (by simp) (.inr (by simp))
    (by simp [ht]) (by simp) ((h.tableInv ht).storePair v h.length_key_le hg)

theorem State.Inv.resize_storePair (h : s.Inv) (v : Word) (ht : s.tvalid = true)
    (hg : s.insertGrows = true) (hc : newcap s.cap.toNat ≤ s.cfg.capMax.toNat) :
    (s.storePair v).resize.Inv :=
  h.of_tableInv (by simp) (by simp) (by simp) (by simp) (by simp) (by simp) (.inr (by simp))
    (by simp [ht]) (by simp) ((h.tableInv ht).resize_storePair v h.length_key_le hg hc)

theorem State.Inv.clearHome (h : s.Inv) (ht : s.tvalid = true)
    (hm : (s.slotRead s.homeIndex).holds s.key = true) : s.clearHome.Inv :=
  h.of_tableInv (by simp) (by simp) (by simp) (by simp) (by simp) (by simp) (.inr (by simp))
    (by simp [ht]) (by simp) ((h.tableInv ht).clearHome hm)

theorem State.Inv.withIcur (h : s.Inv) {n : BitVec 32}
    (hn : s.itact = true → n.toNat ≤ s.cap.toNat) : State.Inv { s with icur := n } :=
  { h with icur_le := hn }

theorem State.Inv.startIteration (h : s.Inv) (ht : s.tvalid = true) :
    State.Inv { s with icur := 0#32, itact := true } :=
  { h with itact_tvalid := fun _ => ht, icur_le := fun _ => Nat.zero_le _ }

theorem State.Inv.loadKey (h : s.Inv) {k : Key} (hk : k.length ≤ s.cfg.keyMax.toNat) :
    (s.loadKey k).Inv := by
  obtain ⟨hwf, hbelow⟩ := h.keybuf_wf
  have hklen : (BitVec.ofNat 16 k.length).toNat ≤ s.cfg.keyMax.toNat := by
    rw [BitVec.toNat_ofNat]
    exact (Nat.mod_le _ _).trans hk
  exact { h with
    klen_le := hklen
    keybuf_wf := ⟨Memory.writeList_wf _ _ _ hwf,
      Memory.writeList_below _ _ ((Nat.zero_add _).trans_le hk) hbelow⟩ }

end

/-- A command keeps the invariant, whatever it does. -/
theorem Effect.keeps_inv {s t : State} {i : Instr} (h : Effect s i t) (hs : s.Inv) : t.Inv := by
  cases h with
  | refused | nop | rdreg | kread | kreadNone => exact hs.told _
  | raised _ c => exact hs.raised _ c
  | hinit => exact (hs.withH id).told _
  | habsorb b x hx => exact (hs.withH fun _ => hx ▸ fnvStep_ne_allOnes _ _ _).told _
  | hkey | get | getNone | removeNone => exact hs.withDigest.told _
  | kclr => exact hs.emptyKey.told _
  | kpush b _ hroom => exact (hs.pushKeyByte b hroom).told _
  | construct m hm => exact (hs.construct hm).told _
  | insert v _ ht hg => exact (hs.storePair v ht hg).told _
  | insertGrow v _ ht hg hc => exact (hs.resize_storePair v ht hg hc).told _
  | remove _ ht hm => exact (hs.clearHome ht hm).told _
  | itstart _ ht => exact (hs.startIteration ht).told _
  | itnext n _ ht ha hn =>
    obtain ⟨-, hlt, -, -⟩ := State.nextOccupied_eq_some.mp hn
    have hcursor : (BitVec.ofNat 32 (n + 1)).toNat ≤ s.cap.toNat := by
      rw [BitVec.toNat_ofNat]
      exact (Nat.mod_le _ _).trans hlt
    exact ((hs.loadKey (hs.key_len n hlt)).withIcur fun _ => hcursor).told _
  | itnextNone => exact (hs.withIcur fun _ => le_refl _).told _

/-- Settles O56: every step is idle, a reset, a word rejected with its cause, or one of the effects of a
command, and each keeps the invariant. -/
theorem everyStepKeepsTheInvariant : Obligations.EveryStepKeepsTheInvariant := by
  unfold Obligations.EveryStepKeepsTheInvariant
  intro s t hs h
  obtain ⟨-, rfl⟩ | ⟨rest, -, rfl⟩ | ⟨w, rest, -, hcmd⟩ := step_cases h
  · exact hs
  · exact (hs.withInputs rest).assertReset
  · obtain ⟨e, -, ⟨-, rfl⟩ | ⟨-, rfl⟩⟩ | ⟨i, -, -, heff⟩ := hcmd
    · exact (hs.withInputs rest).told _
    · exact (hs.withInputs rest).raised _ _
    · exact heff.keeps_inv (hs.withInputs rest)

end Sys2Proof.Machine

namespace Sys2Proof.Machine

/-! ## HABSORB and HKEY (40_hash R109, R110) -/

theorem exec_habsorb (b : Byte) (s : State) :
    exec (.habsorb b) s =
      .next (s.unlessFaulted fun s => State.respond .done { s with h := fnvStep s.cfg s.h b }) := rfl

/-- Settles O20: the row of opcode `0x11` is of format B, and past the check of the fault state HABSORB
writes `H` alone. -/
theorem habsorbRunsOneRound : Obligations.HabsorbRunsOneRound := by
  unfold Obligations.HabsorbRunsOneRound
  refine ⟨spellsByte_of_decodeFields decodeFields_habsorb,
    fun b => refusedInFaultState_of_exec (exec_habsorb b), fun s b hf => ?_⟩
  rw [exec_habsorb, State.unlessFaulted_of_not_fault hf, State.respond_done]

theorem exec_hkey (s : State) :
    exec .hkey s = .next (s.unlessFaulted fun s =>
      State.respond (.data s.keyDigest) { s with h := s.keyDigest }) := rfl

/-- Settles O21: the row of opcode `0x12` is of format Z, and past the check of the fault state HKEY
writes `H` alone; it makes no check of the table. -/
theorem hkeyReturnsTheDigest : Obligations.HkeyReturnsTheDigest := by
  unfold Obligations.HkeyReturnsTheDigest
  refine ⟨spellsZ_of_decodeFields decodeFields_hkey, refusedInFaultState_of_exec exec_hkey,
    fun s hf => ?_⟩
  rw [exec_hkey, State.unlessFaulted_of_not_fault hf, State.respond_data]
  rfl

/-! ## Steps without a command (30_encoding R83, 60_exceptions R215) -/

section
variable {s : State} {w : CmdWord} {rest : List HostInput}

theorem step_of_nil (hin : s.inputs = []) : step s = .next s := by
  simp only [step, hin]

theorem step_of_rst (hin : s.inputs = .rst :: rest) :
    step s = .next (State.assertReset { s with inputs := rest }) := by
  simp only [step, hin]

theorem step_of_cmdThenRst (hin : s.inputs = .cmdThenRst w :: rest) :
    step s = .next (State.assertReset { s with inputs := rest }) := by
  simp only [step, hin]

end

/-- Settles O16: the step without input is the identity. -/
theorem idleBlockKeepsItsState : Obligations.IdleBlockKeepsItsState := by
  unfold Obligations.IdleBlockKeepsItsState
  exact fun _ => step_of_nil

/-- Settles O15: in both its forms `rst` is a reset, which writes every register. -/
theorem rstResetsFromEveryState : Obligations.RstResetsFromEveryState := by
  unfold Obligations.RstResetsFromEveryState
  intro s rest hin
  refine ⟨State.assertReset { s with inputs := rest }, ?_, ?_⟩
  · obtain hin | ⟨w, hin⟩ := hin
    · exact step_of_rst hin
    · exact step_of_cmdThenRst hin
  · and_intros <;> rfl

/-- Settles O5: decoding is all that comes between a command word and `exec`; a table word decodes as
the word `withFetchWord` puts before the inputs. -/
theorem stepExecutesTheDecodedCommand : Obligations.StepExecutesTheDecodedCommand := by
  unfold Obligations.StepExecutesTheDecodedCommand
  refine ⟨fun s w rest i hin hd => step_of_decode_ok hin hd, fun s nbits w i hi => ?_⟩
  have hd : decode (CmdWord.ofTableBits nbits w) = .ok i := by
    rw [decodeTableWord] at hi
    split at hi
    · next j hj => rw [hj, Option.some.inj hi]
    · cases hi
  exact step_of_decode_ok (s := s.withFetchWord nbits w) rfl hd

/-! ## What a host can observe (10_state R27, R29, R40): each update in two states that look the same -/

namespace SameToHost

section
variable {s t : State}

theorem keyDigest (h : SameToHost s t) : s.keyDigest = t.keyDigest := by
  rw [State.keyDigest, State.keyDigest, h.cfg, h.key]

theorem homeIndex (h : SameToHost s t) : s.homeIndex = t.homeIndex := by
  rw [State.homeIndex, State.homeIndex, h.cfg, h.keyDigest, h.cap]

theorem keyByte (h : SameToHost s t) {i : Nat} (hi : i < s.klen.toNat) : s.keyByte i = t.keyByte i := by
  have hget : s.key[i]? = t.key[i]? := by rw [h.key]
  rw [State.getElem?_key, State.getElem?_key, if_pos hi, if_pos (h.klen ▸ hi)] at hget
  exact Option.some.inj hget

theorem faultRecord (h : SameToHost s t) : s.faultRecord = t.faultRecord := by
  rw [State.faultRecord, State.faultRecord, h.fop, h.fcause]

theorem readReg (h : SameToHost s t) (r : RegName) : s.readReg r = t.readReg r := by
  cases r <;> simp only [State.readReg, State.statusWord, State.finfoWord, h.faultRecord, h.cfg, h.h,
    h.klen, h.bank, h.cap, h.size, h.icur, h.tvalid, h.itact, h.fault]

theorem respond (h : SameToHost s t) {r r' : Response} (hr : r = r') :
    SameToHost (s.respond r) (t.respond r') :=
  { h with rsps := by rw [State.respond_rsps, State.respond_rsps, h.rsps, hr] }

theorem refuse (h : SameToHost s t) : SameToHost s.refuse t.refuse :=
  h.respond (congrArg _ h.faultRecord)

theorem raise (h : SameToHost s t) (c : Cause) (op : Byte) : SameToHost (s.raise c op) (t.raise c op) :=
  refuse { h with fault := rfl, fcause := rfl, fop := rfl }

/-- The check of the fault state passes in both states or in neither. -/
theorem unlessFaulted (h : SameToHost s t) {run : State → State} (hrun : SameToHost (run s) (run t)) :
    SameToHost (s.unlessFaulted run) (t.unlessFaulted run) := by
  rw [State.unlessFaulted, State.unlessFaulted, h.fault]
  split
  · exact h.refuse
  · exact hrun

/-- So does the check for a table. -/
theorem unlessNoTable (h : SameToHost s t) {op : Byte} {run : State → State}
    (hrun : s.tvalid = true → SameToHost (run s) (run t)) :
    SameToHost (s.unlessFaulted fun s => if !s.tvalid then s.raise .noTable op else run s)
      (t.unlessFaulted fun s => if !s.tvalid then s.raise .noTable op else run s) := by
  refine h.unlessFaulted ?_
  cases ht : s.tvalid with
  | false => simpa [ht, ← h.tvalid] using h.raise .noTable op
  | true => simpa [ht, ← h.tvalid] using hrun ht

theorem assertReset (h : SameToHost s t) : SameToHost s.assertReset t.assertReset :=
  ⟨h.cfg, congrArg Config.basis h.cfg, rfl, rfl, rfl, rfl, fun _ hi => absurd hi (Nat.not_lt_zero _),
    rfl, rfl, rfl, rfl, rfl, rfl, rfl, h.inputs, h.rsps⟩

theorem withH (h : SameToHost s t) {x y : Word} (hxy : x = y) :
    SameToHost { s with h := x } { t with h := y } :=
  { h with h := hxy }

theorem withIcur (h : SameToHost s t) {n n' : BitVec 32} (hn : n = n') :
    SameToHost { s with icur := n } { t with icur := n' } :=
  { h with icur := hn }

theorem startIteration (h : SameToHost s t) :
    SameToHost { s with icur := 0#32, itact := true } { t with icur := 0#32, itact := true } :=
  { h with icur := rfl, itact := rfl }

theorem emptyKey (h : SameToHost s t) : SameToHost { s with klen := 0#16 } { t with klen := 0#16 } :=
  { h with
    klen := rfl
    key := (State.key_eq_nil_of_klen_eq_zero rfl).trans (State.key_eq_nil_of_klen_eq_zero rfl).symm }

/-- KPUSH writes at `KLEN`, below which the bytes show and above which they do not; a `KLEN` that wraps
to 0, as in no run, shows none. -/
theorem pushKeyByte (h : SameToHost s t) (b : Byte) : SameToHost (s.pushKeyByte b) (t.pushKeyByte b) := by
  have hklen : (s.pushKeyByte b).klen = (t.pushKeyByte b).klen := congrArg (· + 1#16) h.klen
  refine { h with klen := hklen, key := ?_ }
  by_cases hwrap : s.klen.toNat + 1 < 2 ^ 16
  · rw [State.key_pushKeyByte s b hwrap, State.key_pushKeyByte t b (h.klen ▸ hwrap), h.key]
  · have hzero : (s.pushKeyByte b).klen = 0#16 := by
      have := s.klen.isLt
      apply BitVec.eq_of_toNat_eq
      rw [State.pushKeyByte_eq, BitVec.toNat_ofNat, show s.klen.toNat + 1 = 2 ^ 16 by omega]
      rfl
    rw [State.key_eq_nil_of_klen_eq_zero hzero, State.key_eq_nil_of_klen_eq_zero (hklen ▸ hzero)]

/-- The bytes that show of a loaded key are bytes of the key, whatever its length. -/
theorem loadKey (h : SameToHost s t) (k : Key) : SameToHost (s.loadKey k) (t.loadKey k) := by
  refine { h with klen := rfl, key := List.map_congr_left fun i hi => ?_ }
  have hi : i < k.length := by
    have hlt := List.mem_range.mp hi
    rw [State.loadKey_klen, BitVec.toNat_ofNat] at hlt
    exact hlt.trans_le (Nat.mod_le _ _)
  rw [State.keyByte_loadKey, State.keyByte_loadKey, List.getElem?_eq_getElem hi]
  rfl

theorem nextOccupied (h : SameToHost s t) : s.nextOccupied = t.nextOccupied := by
  rw [State.nextOccupied, State.nextOccupied, h.icur, h.cap]
  refine List.find?_congr fun i hi => ?_
  obtain ⟨hlow, hhigh⟩ := List.mem_range'_1.mp hi
  rw [h.slots i (by rw [h.cap]; omega)]

theorem construct (h : SameToHost s t) {m m' : Memory Slot}
    (hm : ∀ i, i < 127 → Memory.read Slot.unlisted m i = Memory.read Slot.unlisted m' i) :
    SameToHost
      { s with
        bank := false, slot0 := m, cap := BitVec.ofNat 32 capInit, size := 0#32, icur := 0#32,
        tvalid := true, itact := false }
      { t with
        bank := false, slot0 := m', cap := BitVec.ofNat 32 capInit, size := 0#32, icur := 0#32,
        tvalid := true, itact := false } :=
  { h with
    bank := rfl, cap := rfl, slots := hm, size := rfl, icur := rfl, tvalid := rfl, itact := rfl }

section
variable (h : SameToHost s t) (hcap : 0 < s.cap.toNat)
include h hcap

theorem slotRead_homeIndex : s.slotRead s.homeIndex = t.slotRead t.homeIndex := by
  rw [h.slots _ (State.homeIndex_lt hcap), h.homeIndex]

theorem insertFills : s.insertFills = t.insertFills := by
  rw [State.insertFills, State.insertFills, h.slotRead_homeIndex hcap]

theorem insertGrows : s.insertGrows = t.insertGrows := by
  rw [State.insertGrows, State.insertGrows, h.insertFills hcap, h.size, h.cap]

theorem insertExhausts : s.insertExhausts = t.insertExhausts := by
  rw [State.insertExhausts, State.insertExhausts, h.insertGrows hcap, h.cfg, h.cap]

theorem storePair (v : Word) : SameToHost (s.storePair v) (t.storePair v) := by
  constructor
  case slots =>
    intro i hi
    rw [State.storePair_cap] at hi
    rw [State.storePair_slotRead, State.storePair_slotRead, h.homeIndex, h.key, h.slots i hi]
  all_goals
    simp [h.cfg, h.keyDigest, h.klen, h.key, h.bank, h.cap, h.insertFills hcap, h.size, h.icur, h.tvalid,
      h.fault, h.fcause, h.fop, h.inputs, h.rsps]

end

/-- A resize reads the slots that show, and the bank it fills shows below the new capacity alone. -/
theorem resize (h : SameToHost s t) : SameToHost s.resize t.resize := by
  constructor
  case slots =>
    intro i hi
    have hi : i < newcap s.cap.toNat := by
      rw [State.resize_cap, BitVec.toNat_ofNat] at hi
      exact hi.trans_le (Nat.mod_le _ _)
    rw [State.resize_slotRead_of_lt hi, State.resize_slotRead_of_lt (h.cap ▸ hi),
      survivor_congr _ h.slots, h.cfg, h.cap]
  all_goals
    simp [h.cfg, h.h, h.klen, h.key, h.bank, h.cap, h.size, h.icur, h.tvalid, h.itact, h.fault,
      h.fcause, h.fop, h.inputs, h.rsps]

theorem clearHome (h : SameToHost s t) : SameToHost s.clearHome t.clearHome := by
  constructor
  case slots =>
    intro i hi
    rw [State.clearHome_cap] at hi
    rw [State.clearHome_slotRead, State.clearHome_slotRead, h.homeIndex, h.slots i hi]
  all_goals
    simp [h.cfg, h.keyDigest, h.klen, h.key, h.bank, h.cap, h.size, h.icur, h.tvalid, h.fault,
      h.fcause, h.fop, h.inputs, h.rsps]

end

/-- A command answers alike in two states that look the same, and leaves two that do. -/
theorem exec_next {s t : State} (h : SameToHost s t) (hcap : s.tvalid = true → 0 < s.cap.toNat)
    (i : Instr) : ∃ s' t', exec i s = .next s' ∧ exec i t = .next t' ∧ SameToHost s' t' := by
  cases i with
  | nop => exact ⟨_, _, exec_nop s, exec_nop t, h.unlessFaulted (h.respond rfl)⟩
  | construct =>
    refine ⟨_, _, exec_construct s, exec_construct t,
      h.unlessFaulted ((h.construct fun i hi => ?_).respond rfl)⟩
    rw [Memory.read_fill, Memory.read_fill, capInit, if_pos hi, if_pos hi]
  | rdreg n =>
    cases hn : RegName.ofNumber n with
    | some r =>
      refine ⟨_, _, exec_rdreg_assigned hn s, exec_rdreg_assigned hn t, ?_⟩
      rw [← State.respond_data, ← State.respond_data]
      exact h.respond (congrArg _ (h.readReg r))
    | none =>
      have hn := (RegName.ofNumber_eq_none n).mp hn
      exact ⟨_, _, exec_rdreg_unassigned hn s, exec_rdreg_unassigned hn t,
        h.unlessFaulted (h.raise _ _)⟩
  | hinit =>
    exact ⟨_, _, exec_hinit s, exec_hinit t,
      h.unlessFaulted ((h.withH (congrArg Config.basis h.cfg)).respond rfl)⟩
  | habsorb b =>
    exact ⟨_, _, exec_habsorb b s, exec_habsorb b t,
      h.unlessFaulted ((h.withH (by rw [h.cfg, h.h])).respond rfl)⟩
  | hkey =>
    exact ⟨_, _, exec_hkey s, exec_hkey t,
      h.unlessFaulted ((h.withH h.keyDigest).respond (congrArg _ h.keyDigest))⟩
  | kclr => exact ⟨_, _, exec_kclr s, exec_kclr t, h.unlessFaulted (h.emptyKey.respond rfl)⟩
  | kpush b =>
    refine ⟨_, _, exec_kpush b s, exec_kpush b t, h.unlessFaulted ?_⟩
    rw [h.klen, h.cfg]
    split
    · exact h.raise _ _
    · exact (h.pushKeyByte b).respond rfl
  | kread x =>
    refine ⟨_, _, exec_kread x s, exec_kread x t, h.unlessFaulted ?_⟩
    by_cases hx : x.toNat < s.klen.toNat
    · rw [if_pos hx, if_pos (h.klen ▸ hx), h.keyByte hx]
      exact h.respond rfl
    · rw [if_neg hx, if_neg (h.klen ▸ hx)]
      exact h.respond rfl
  | insert v =>
    refine ⟨_, _, exec_insert v s, exec_insert v t, h.unlessNoTable fun ht => ?_⟩
    rw [h.insertExhausts (hcap ht), h.insertGrows (hcap ht)]
    split
    · exact h.raise _ _
    · split
      · exact (h.storePair (hcap ht) v).resize.respond rfl
      · exact (h.storePair (hcap ht) v).respond rfl
  | get =>
    refine ⟨_, _, exec_get s, exec_get t, h.unlessNoTable fun ht => ?_⟩
    rw [h.slotRead_homeIndex (hcap ht), h.key]
    split
    · exact (h.withH h.keyDigest).respond rfl
    · exact (h.withH h.keyDigest).respond rfl
  | remove =>
    refine ⟨_, _, exec_remove s, exec_remove t, h.unlessNoTable fun ht => ?_⟩
    rw [h.slotRead_homeIndex (hcap ht), h.key]
    split
    · exact h.clearHome.respond rfl
    · exact (h.withH h.keyDigest).respond rfl
  | itstart =>
    exact ⟨_, _, exec_itstart s, exec_itstart t, h.unlessNoTable fun _ =>
      h.startIteration.respond rfl⟩
  | itnext =>
    refine ⟨_, _, exec_itnext s, exec_itnext t, h.unlessNoTable fun ht => ?_⟩
    by_cases ha : s.itact = true
    · rw [if_neg (by simp [ha]), if_neg (by simp [← h.itact, ha]), h.nextOccupied]
      split
      · next n hn =>
        obtain ⟨-, hlt, -, -⟩ := State.nextOccupied_eq_some.mp (h.nextOccupied.trans hn)
        rw [h.slots n hlt]
        exact ((h.loadKey _).withIcur rfl).respond rfl
      · exact (h.withIcur h.cap).respond rfl
    · rw [if_pos (by simp [ha]), if_pos (by simp [← h.itact, ha])]
      exact h.raise _ _

/-- So does every step: idle, a reset, a rejected word, a command. -/
theorem step_next {s t : State} (h : SameToHost s t) (hcap : s.tvalid = true → 0 < s.cap.toNat) :
    ∃ s' t', step s = .next s' ∧ step t = .next t' ∧ SameToHost s' t' := by
  have hrest (rest : List HostInput) :
      SameToHost { s with inputs := rest } { t with inputs := rest } := { h with inputs := rfl }
  rcases hin : s.inputs with _ | ⟨w | _ | w, rest⟩ <;> have hin' := h.inputs.symm.trans hin
  · exact ⟨s, t, step_of_nil hin, step_of_nil hin', h⟩
  · cases hd : decode w with
    | ok i =>
      rw [step_of_decode_ok hin hd, step_of_decode_ok hin' hd]
      exact (hrest rest).exec_next hcap i
    | error e =>
      exact ⟨_, _, step_of_decode_error hin hd, step_of_decode_error hin' hd,
        (hrest rest).unlessFaulted ((hrest rest).raise _ _)⟩
  · exact ⟨_, _, step_of_rst hin, step_of_rst hin', (hrest rest).assertReset⟩
  · exact ⟨_, _, step_of_cmdThenRst hin, step_of_cmdThenRst hin', (hrest rest).assertReset⟩

end SameToHost

/-- Settles O59: each update a step makes, made in two states that look the same, leaves two that do. -/
theorem unobservableStateNeverShows : Obligations.UnobservableStateNeverShows := by
  unfold Obligations.UnobservableStateNeverShows
  intro s t s' t' h hcap hs ht
  obtain ⟨s₁, t₁, hs₁, ht₁, hst⟩ := h.step_next hcap
  obtain rfl := outcome_next hs hs₁
  obtain rfl := outcome_next ht ht₁
  exact hst

end Sys2Proof.Machine

namespace Sys2Proof.Machine

/-! ## The split multiply against the true product (40_hash R101, R106) -/

/-- Two numbers that differ by a multiple of `2^32` agree modulo `2^64` exactly when it is one of
`2^64`. -/
theorem mod_eq_add_mul_mod_iff (a e : Nat) :
    a % 2 ^ 64 = (a + e * 2 ^ 32) % 2 ^ 64 ↔ e % 2 ^ 32 = 0 := by omega

/-- `MUL_HH` adds the product of the upper halves, shifted, and nothing else. -/
theorem fnvMul_mulHH_iff (c : Config) (x : Word) :
    fnvMul { c with mulHH := false } x = fnvMul { c with mulHH := true } x ↔
      hi x * hi c.prime % 2 ^ 32 = 0 := by
  rw [← BitVec.toNat_inj, toNat_fnvMul, toNat_fnvMul]
  simpa using mod_eq_add_mul_mod_iff (x.toNat * c.prime.toNat) (hi x * hi c.prime)

/-- Settles O40: the multiply as a product modulo `2^64` with the term `MUL_HH` adds; that term, a
multiple of `2^32`, leaves the low half alone. -/
theorem splitMultiplyAgainstTheTrueProduct : Obligations.SplitMultiplyAgainstTheTrueProduct := by
  unfold Obligations.SplitMultiplyAgainstTheTrueProduct
  refine fun c x => ⟨?_, ?_, fnvMul_mulHH_iff c x, ?_⟩
  · rw [toNat_fnvMul]
    simp
  · rw [toNat_fnvMul]
    simp
  · rw [toNat_fnvMul, Nat.mod_mod_of_dvd _ (by decide), Nat.add_mul_mod_self_right, Nat.mul_mod]
    rfl

/-! ## Digests (40_hash R104, R106, R107) -/

/-- A byte is exclusive-or-ed into the lower half (40_hash R103). -/
theorem hi_xor_setWidth (x : Word) (b : Byte) : hi (x ^^^ b.setWidth 64) = hi x := by
  have hb : b.toNat / 2 ^ 32 = 0 := by omega
  rw [hi, hi, toNat_xor_setWidth, ← Nat.shiftRight_eq_div_pow, Nat.shiftRight_xor_distrib,
    Nat.shiftRight_eq_div_pow, Nat.shiftRight_eq_div_pow, hb, Nat.xor_zero]

theorem fnvHash_singleton (c : Config) (b : Byte) :
    fnvHash c [b] = fnvReduce (fnvMul c (c.basis ^^^ b.setWidth 64)) := rfl

/-- Settles O41: the empty digest is the basis; in the first round the upper half of the multiplicand is
the basis's, so the product `MUL_HH` adds is 0. -/
theorem shortDigestsIgnoreMulHh : Obligations.ShortDigestsIgnoreMulHh := by
  unfold Obligations.ShortDigestsIgnoreMulHh
  intro c k hbasis hk
  match k with
  | [] => rw [fnvHash_nil, fnvHash_nil]
  | [b] =>
    rw [fnvHash_singleton, fnvHash_singleton]
    refine congrArg fnvReduce ((fnvMul_mulHH_iff c _).mpr ?_)
    rw [hi_xor_setWidth, hbasis, Nat.zero_mul]
    rfl
  | _ :: _ :: _ => simp at hk

/-- Settles O42: a digest of a byte or more ends in a round, which is reduced; a digest is a fold. -/
theorem digestsStayBelowAllOnes : Obligations.DigestsStayBelowAllOnes := by
  unfold Obligations.DigestsStayBelowAllOnes
  refine fun c => ⟨fnvHash_nil c, fun k hk => ?_, fun s t => List.foldl_append⟩
  rw [← List.dropLast_append_getLast hk, fnvHash_concat]
  exact toNat_fnvStep_lt ..

/-! ## The table's arithmetic (42_table R130, R133 to R135) -/

theorem overLoad_iff (n c : Nat) : overLoad n c = true ↔ 3 * c < 4 * n := decide_eq_true_iff

theorem newcap_of_lt {c : Nat} (h : c < 1000) : newcap c = 2 * c := if_pos h

theorem newcap_of_ge {c : Nat} (h : 1000 ≤ c) : newcap c = 8 * c / 5 := if_neg (Nat.not_lt.mpr h)

/-- Settles O45: the comparison is one of numbers, and the sequence and its thresholds are computed. -/
theorem loadAndGrowthArithmetic : Obligations.LoadAndGrowthArithmetic := by
  unfold Obligations.LoadAndGrowthArithmetic
  refine ⟨fun n c => ⟨overLoad_iff n c, ?_⟩, fun c => ⟨newcap_of_lt, newcap_of_ge, lt_newcap⟩,
    by decide, by decide⟩
  rw [overLoad_iff]
  omega

/-- Settles O44: a remainder is below its divisor, a digest of 64 bits needs no narrowing to them, and
the scan stays in its range. -/
theorem slotAccessesStayInTheTable : Obligations.SlotAccessesStayInTheTable := by
  unfold Obligations.SlotAccessesStayInTheTable
  refine ⟨fun cfg d c hc => ⟨home_lt cfg d hc, fun hbits => ?_, fun hbits => ?_⟩,
    fun s => State.homeIndex_lt, fun s i hi => ?_⟩
  · rw [home, hbits, IdxBits.num, Nat.mod_eq_of_lt d.isLt]
  · rw [home, hbits, IdxBits.num]
  · obtain ⟨hlow, hhigh, -, -⟩ := State.nextOccupied_eq_some.mp hi
    exact ⟨hlow, hhigh⟩

end Sys2Proof.Machine

namespace Sys2Proof.Machine

/-! ## What each command writes (10_state R20) -/

/-- Settles O36: case by case of what a command can do, by the fields its update leaves. -/
theorem eachRegisterIsWrittenOnlyByItsCommands : Obligations.EachRegisterIsWrittenOnlyByItsCommands := by
  unfold Obligations.EachRegisterIsWrittenOnlyByItsCommands
  intro i s t h
  cases exec_effect h with
  | refused => simp [State.refused]
  | raised hf => simp [hf]
  | _ => simp [Instr.opcode]

section
variable {s t : State} {i : Instr}

theorem exec_keeps_cfg (h : exec i s = .next t) : t.cfg = s.cfg := by
  obtain ⟨hcfg, -⟩ := eachRegisterIsWrittenOnlyByItsCommands i s t h
  exact hcfg

theorem exec_keeps_inputs (h : exec i s = .next t) : t.inputs = s.inputs := by
  obtain ⟨-, hinputs, -⟩ := eachRegisterIsWrittenOnlyByItsCommands i s t h
  exact hinputs

/-- The commands outside the table's five and CONSTRUCT leave cursor, table and slots alone: R20 lists
them against none of these. -/
theorem exec_leaves_iteration (h : exec i s = .next t)
    (hi : i.opcode ∉ [0x01#8, 0x30#8, 0x32#8, 0x40#8, 0x41#8]) :
    t.icur = s.icur ∧ t.itact = s.itact ∧ t.tvalid = s.tvalid ∧ t.cap = s.cap ∧ t.bank = s.bank ∧
      t.slot0 = s.slot0 ∧ t.slot1 = s.slot1 ∧ t.size = s.size := by
  obtain ⟨-, -, -, -, -, hslots, hbank, hsize, hicur, htvalid, hitact, -⟩ :=
    eachRegisterIsWrittenOnlyByItsCommands i s t h
  have hnot {l : List Byte} (hl : l ⊆ [0x01#8, 0x30#8, 0x32#8, 0x40#8, 0x41#8]) : i.opcode ∉ l :=
    fun hm => hi (hl hm)
  obtain ⟨h0, h1⟩ := hslots (hnot (by decide))
  obtain ⟨hb, hc⟩ := hbank (hnot (by decide))
  exact ⟨hicur (hnot (by decide)), hitact (hnot (by decide)), htvalid (hnot (by decide)), hc, hb, h0, h1,
    hsize (hnot (by decide))⟩

end

/-- Settles O55: all but REMOVE are listed against none of these registers, and a REMOVE that executes
has found its key or writes `H` alone. -/
theorem otherCommandsLeaveTheIterationAlone : Obligations.OtherCommandsLeaveTheIterationAlone := by
  unfold Obligations.OtherCommandsLeaveTheIterationAlone
  intro i s t h hi
  obtain hi | ⟨r, rfl⟩ | ⟨b, rfl⟩ | ⟨b, rfl⟩ | ⟨x, rfl⟩ | ⟨rfl, hnone⟩ := hi
  · have hlist : ∀ i ∈ [Instr.nop, .hinit, .hkey, .kclr, .get],
        i.opcode ∉ [0x01#8, 0x30#8, 0x32#8, 0x40#8, 0x41#8] := by decide
    exact exec_leaves_iteration h (hlist i hi)
  · exact exec_leaves_iteration h (by simp [Instr.opcode])
  · exact exec_leaves_iteration h (by simp [Instr.opcode])
  · exact exec_leaves_iteration h (by simp [Instr.opcode])
  · exact exec_leaves_iteration h (by simp [Instr.opcode])
  · cases exec_effect h with
    | refused | raised | removeNone => and_intros <;> rfl
    | remove _ _ hm => exact absurd hm (State.lookup_key_eq_none.mp hnone)

/-! ## The response of a command (30_encoding R74, R75) -/

theorem word_fault_raised (s : State) (op code : Byte) :
    (Response.fault (s.raised op code).faultRecord).word = faultWord op code :=
  word_fault (s.raised op code)

/-- In the fault state a refusal is a cause raised anew: the record is as before (60_exceptions R202). -/
theorem State.refused_eq_raised {s : State} (hf : s.fault = true) :
    s.refused = s.raised s.fop s.fcause := by
  rw [State.raised, ← hf]
  rfl

/-- A word that spells no command leaves a fault record, the one before or its own. -/
theorem State.exists_unlessFaulted_raise_eq (s : State) (c : Cause) (op : Byte) :
    ∃ op' code, s.unlessFaulted (State.raise c op) = s.raised op' code := by
  cases hf : s.fault with
  | true => exact ⟨_, _, (State.unlessFaulted_of_fault hf _).trans (State.refused_eq_raised hf)⟩
  | false => exact ⟨_, _, (State.unlessFaulted_of_not_fault hf _).trans (State.raise_eq ..)⟩

/-- How a command answers: FAULT, as a raised cause or a refusal, with nothing but the fault record
changed; or it executes and keeps the record, with DATA, or with DONE or NONE outside the fault state.
-/
inductive Answered (s t : State) : Prop where
  | fault (op code : Byte) (ht : t = s.raised op code)
  | data (v : Word) (hrsps : t.rsps = s.rsps ++ [dataWord v])
      (hrecord : t.fault = s.fault ∧ t.fcause = s.fcause ∧ t.fop = s.fop)
  | done (hrsps : t.rsps = s.rsps ++ [doneWord]) (hf : s.fault = false)
      (hrecord : t.fault = s.fault ∧ t.fcause = s.fcause ∧ t.fop = s.fop)
  | absent (hrsps : t.rsps = s.rsps ++ [noneWord]) (hf : s.fault = false)
      (hrecord : t.fault = s.fault ∧ t.fcause = s.fcause ∧ t.fop = s.fop)

theorem Effect.answered {s t : State} {i : Instr} (h : Effect s i t) : Answered s t := by
  cases h with
  | refused hf => exact .fault _ _ (State.refused_eq_raised hf)
  | raised => exact .fault _ _ rfl
  | rdreg | hkey | kread | get | itnext => exact .data _ rfl ⟨rfl, rfl, rfl⟩
  | remove => exact .data _ (congrArg (· ++ [_]) s.clearHome_rsps) (by simp)
  | insert _ hf | insertGrow _ hf => exact .done (by simp) hf (by simp)
  | nop hf | hinit hf | habsorb _ _ _ hf | kclr hf | kpush _ hf | construct _ _ hf | itstart hf =>
    exact .done rfl hf ⟨rfl, rfl, rfl⟩
  | kreadNone _ hf | getNone hf | removeNone hf | itnextNone hf => exact .absent rfl hf ⟨rfl, rfl, rfl⟩

/-- A step with a command word takes the word and answers it. -/
theorem step_answered {s : State} {w : CmdWord} {rest : List HostInput} (hin : s.inputs = .cmd w :: rest) :
    ∃ t, step s = .next t ∧ t.inputs = rest ∧ Answered { s with inputs := rest } t := by
  cases hd : decode w with
  | ok i =>
    obtain ⟨t, ht⟩ := exec_next i { s with inputs := rest }
    exact ⟨t, (step_of_decode_ok hin hd).trans ht, exec_keeps_inputs ht, (exec_effect ht).answered⟩
  | error e =>
    obtain ⟨op, code, hraised⟩ :=
      State.exists_unlessFaulted_raise_eq { s with inputs := rest } (rejectCause e) (CmdWord.op w)
    exact ⟨_, (step_of_decode_error hin hd).trans (congrArg _ hraised), rfl, .fault op code rfl⟩

/-- Settles O7: each of the ways a step answers is one response; the fields of a response word are its two
parts. -/
theorem everyCommandGetsOneResponse : Obligations.EveryCommandGetsOneResponse := by
  unfold Obligations.EveryCommandGetsOneResponse
  refine ⟨fun s w rest hin => ?_, fun r => ?_, fun r => ?_⟩
  · obtain ⟨t, ht, hinputs, hanswer⟩ := step_answered hin
    cases hanswer with
    | fault op code hraised =>
      subst hraised
      refine ⟨_, .fault (State.raised s op code).faultRecord, ht, hinputs, ?_, by simp⟩
      rw [word_fault_raised]
      rfl
    | data v hrsps => exact ⟨t, .data v, ht, hinputs, by rw [hrsps, word_data], by simp⟩
    | done hrsps hf hrecord => exact ⟨t, .done, ht, hinputs, hrsps, by simp [hrecord.1.trans hf]⟩
    | absent hrsps hf hrecord => exact ⟨t, .absent, ht, hinputs, hrsps, by simp [hrecord.1.trans hf]⟩
  · cases r <;> exact BitVec.extractLsb'_append_eq_left
  · cases r <;> exact BitVec.extractLsb'_append_eq_right

/-- Settles O8: the steps without a command answer by definition, and one with a command as above. -/
theorem everyStepAnswers : Obligations.EveryStepAnswers := by
  unfold Obligations.EveryStepAnswers
  constructor
  · intro s
    rcases hin : s.inputs with _ | ⟨w | _ | w, rest⟩
    · exact ⟨_, step_of_nil hin⟩
    · obtain ⟨t, ht, -⟩ := step_answered hin
      exact ⟨t, ht⟩
    · exact ⟨_, step_of_rst hin⟩
    · exact ⟨_, step_of_cmdThenRst hin⟩
  · intro s w rest hin
    obtain ⟨t, ht, -, hanswer⟩ := step_answered hin
    refine ⟨t, ht, ?_⟩
    cases hanswer with
    | fault op code hraised => exact .inr ⟨op, code, hraised⟩
    | data v hrsps hrecord => exact .inl ⟨_, hrsps, .inr (.inr ⟨v, rfl⟩), hrecord⟩
    | done hrsps _ hrecord => exact .inl ⟨_, hrsps, .inl rfl, hrecord⟩
    | absent hrsps _ hrecord => exact .inl ⟨_, hrsps, .inr (.inl rfl), hrecord⟩

end Sys2Proof.Machine

namespace Sys2Proof.Machine

/-! ## The hardwired registers (10_state R38, R39) -/

theorem step_keeps_cfg {s t : State} (h : step s = .next t) : t.cfg = s.cfg := by
  obtain ⟨-, rfl⟩ | ⟨rest, -, rfl⟩ | ⟨w, rest, -, hcmd⟩ := step_cases h
  · rfl
  · rfl
  · obtain ⟨e, -, ⟨-, rfl⟩ | ⟨-, rfl⟩⟩ | ⟨i, -, hexec, -⟩ := hcmd
    · rfl
    · rfl
    · exact (exec_keeps_cfg hexec :)

/-- The rows of R37 from `0x07` up read the parameters alone. -/
theorem regNumber_congr_cfg {s t : State} (h : t.cfg = s.cfg) {n : Nat} (hlow : 0x07 ≤ n)
    (hhigh : n ≤ 0x0B) : regNumber t n = regNumber s n := by
  interval_cases n <;> simp only [regNumber, h]

/-- Settles O58: no step writes the parameters, and the five registers show nothing else. -/
theorem hardwiredRegistersNeverChange : Obligations.HardwiredRegistersNeverChange := by
  unfold Obligations.HardwiredRegistersNeverChange
  intro s t h
  have hcfg := step_keeps_cfg h
  refine ⟨hcfg, fun r hlow hhigh => ⟨BitVec.ofNat 64 (regNumber s r.toNat), ?_⟩⟩
  obtain ⟨-, hread⟩ := rdregReadsItsRegister
  obtain ⟨hs, -⟩ := (hread s r).1 hhigh
  obtain ⟨ht, -⟩ := (hread t r).1 hhigh
  exact ⟨hs, regNumber_congr_cfg hcfg hlow hhigh ▸ ht⟩

/-! ## INSERT on an empty home slot (42_table R133, R140, R158 (d)) -/

section
variable {s : State} (v : Word)

theorem State.not_insertExhausts_of_not_insertGrows (hg : ¬ s.insertGrows = true) :
    ¬ s.insertExhausts = true := fun he => by
  obtain ⟨hocc, hover, -⟩ := (State.insertExhausts_iff s).mp he
  exact hg ((State.insertGrows_iff s).mpr ⟨hocc, hover⟩)

/-- An INSERT that does not grow the table executes and stores its pair. -/
theorem exec_insert_storePair (hf : s.fault = false) (ht : s.tvalid = true)
    (hg : ¬ s.insertGrows = true) : exec (.insert v) s = .next ((s.storePair v).told doneWord) := by
  rw [exec_insert_stores v hf ht (State.not_insertExhausts_of_not_insertGrows hg), if_neg hg]

/-- An INSERT that grows the table inside `CAP_MAX` executes, stores its pair and resizes. -/
theorem exec_insert_resize (hf : s.fault = false) (ht : s.tvalid = true) (hg : s.insertGrows = true)
    (hc : newcap s.cap.toNat ≤ s.cfg.capMax.toNat) :
    exec (.insert v) s = .next ((s.storePair v).resize.told doneWord) := by
  rw [exec_insert_stores v hf ht fun he => ?_, if_pos hg]
  obtain ⟨-, -, hover⟩ := (State.insertExhausts_iff s).mp he
  exact hc.not_gt hover

/-- A table with room for one more at 3/4 does not grow. -/
theorem State.not_insertGrows_of_load (h : 4 * (s.size.toNat + 1) ≤ 3 * s.cap.toNat) :
    ¬ s.insertGrows = true := fun hg => by
  obtain ⟨-, hover⟩ := (State.insertGrows_iff s).mp hg
  omega

/-- Filling the home slot, as a record update (R140). -/
theorem State.storePair_eq_of_not_occ (hocc : (s.slotRead s.homeIndex).occ = false) :
    s.storePair v = { s with
      slot0 := (s.storePair v).slot0, slot1 := (s.storePair v).slot1, h := s.keyDigest,
      itact := false, size := BitVec.ofNat 32 (s.size.toNat + 1) } :=
  (State.storePair_eq v s).trans (by rw [State.insertFills_iff.mpr hocc]; rfl)

end

/-- Settles O27: the pair is stored and counted, and a table that is then not over 3/4 does not grow. -/
theorem insertFillsAnEmptySlot : Obligations.InsertFillsAnEmptySlot := by
  unfold Obligations.InsertFillsAnEmptySlot
  intro s v hf ht hocc hload
  refine ⟨_, exec_insert_storePair v hf ht (State.not_insertGrows_of_load hload),
    congrArg (State.told · doneWord) (State.storePair_eq_of_not_occ v hocc), fun b i => ?_⟩
  rw [State.told_bankSlot, State.storePair_bankSlot]

/-- Settles O52: of 127 slots 96 are the first count over 3/4. -/
theorem ninetySixthFillDoubles : Obligations.NinetySixthFillDoubles := by
  unfold Obligations.NinetySixthFillDoubles
  intro s v hf ht hcap hmax hocc
  have hcap' : s.cap.toNat = 127 := congrArg BitVec.toNat hcap
  by_cases hsize : s.size.toNat + 1 < 96
  · refine ⟨_, exec_insert_storePair v hf ht (State.not_insertGrows_of_load (by omega)), ?_, ?_⟩
    · simp [hf]
    · simp [hsize, hcap]
  · have hg : s.insertGrows = true := (State.insertGrows_iff s).mpr ⟨hocc, by omega⟩
    have hc : newcap s.cap.toNat = 254 := by rw [hcap']; decide
    refine ⟨_, exec_insert_resize v hf ht hg (by omega), ?_, ?_⟩
    · simp [hf]
    · simp [hsize, hc]

/-! ## ITNEXT (43_iterate R172) -/

section
variable {s : State}

/-- ITNEXT past its checks, with an occupied slot left. -/
theorem exec_itnext_of_some (hf : s.fault = false) (ht : s.tvalid = true) (ha : s.itact = true) {i : Nat}
    (hn : s.nextOccupied = some i) :
    exec .itnext s = .next (State.told
      { s.loadKey (s.slotRead i).key with icur := BitVec.ofNat 32 (i + 1) }
      (dataWord (s.slotRead i).val)) := by
  rw [exec_itnext, State.unlessFaulted_table hf ht, if_neg (by simp [ha]), hn, ← State.respond_data]

/-- ITNEXT past its checks, with no occupied slot left. -/
theorem exec_itnext_of_none (hf : s.fault = false) (ht : s.tvalid = true) (ha : s.itact = true)
    (hn : s.nextOccupied = none) :
    exec .itnext s = .next (State.told { s with icur := s.cap } noneWord) := by
  rw [exec_itnext, State.unlessFaulted_table hf ht, if_neg (by simp [ha]), hn, ← State.respond_absent]

theorem toNat_ofNat_cursor {i : Nat} (hi : i < s.cap.toNat) :
    (BitVec.ofNat 32 (i + 1)).toNat = i + 1 := by
  rw [BitVec.toNat_ofNat]
  have := s.cap.isLt
  omega

end

/-- Settles O33: the scan finds the slot the statement describes, whose key, short enough for `KLEN`, is
the key after it is loaded. -/
theorem itnextYieldsTheNextOccupiedSlot : Obligations.ItnextYieldsTheNextOccupiedSlot := by
  unfold Obligations.ItnextYieldsTheNextOccupiedSlot
  refine ⟨spellsZ_of_decodeFields decodeFields_itnext, refusedInFaultState_of_exec exec_itnext,
    fun s i hf ht ha hlow hhigh hocc hfirst hlen => ?_, fun s hf ht ha hnone => ?_⟩
  · have hn : s.nextOccupied = some i := State.nextOccupied_eq_some.mpr ⟨hlow, hhigh, hocc, hfirst⟩
    have hkey : (s.slotRead i).key.length < 2 ^ 16 := hlen.trans_lt s.cfg.keyMax.isLt
    refine ⟨_, exec_itnext_of_some hf ht ha hn, rfl, State.key_loadKey s _ hkey,
      toNat_ofNat_cursor hhigh, fun a hlast => ?_⟩
    refine (State.keyByte_loadKey s (s.slotRead i).key a).trans ?_
    rw [List.getElem?_eq_none hlast]
    rfl
  · exact exec_itnext_of_none hf ht ha (State.nextOccupied_eq_none.mpr hnone)

end Sys2Proof.Machine

namespace Sys2Proof.Machine

/-! ## The commands that write the table, when they execute -/

section
variable {s t : State}

/-- An INSERT that executes stores its pair, and resizes exactly when the table grows. -/
theorem exec_insert_cases {v : Word} (h : exec (.insert v) s = .next t) (hf : t.fault = false) :
    s.tvalid = true ∧
      (s.insertGrows = false ∧ t = (s.storePair v).told doneWord ∨
        s.insertGrows = true ∧ newcap s.cap.toNat ≤ s.cfg.capMax.toNat ∧
          t = (s.storePair v).resize.told doneWord) := by
  cases exec_effect h with
  | refused hfault => exact absurd hf (by simp [State.refused, hfault])
  | raised => exact absurd hf (by simp)
  | insert _ _ ht hg => exact ⟨ht, .inl ⟨hg, rfl⟩⟩
  | insertGrow _ _ ht hg hc => exact ⟨ht, .inr ⟨hg, hc, rfl⟩⟩

/-- A REMOVE that executes empties the home slot, or finds nothing and writes `H`. -/
theorem exec_remove_cases (h : exec .remove s = .next t) (hf : t.fault = false) :
    s.tvalid = true ∧
      ((s.slotRead s.homeIndex).holds s.key = true ∧
          t = s.clearHome.told (dataWord (s.slotRead s.homeIndex).val) ∨
        (s.slotRead s.homeIndex).holds s.key = false ∧
          t = State.told { s with h := s.keyDigest } noneWord) := by
  cases exec_effect h with
  | refused hfault => exact absurd hf (by simp [State.refused, hfault])
  | raised => exact absurd hf (by simp)
  | remove _ ht hm => exact ⟨ht, .inl ⟨hm, rfl⟩⟩
  | removeNone _ ht hm => exact ⟨ht, .inr ⟨hm, rfl⟩⟩

/-! ## The table as a map (42_table R141, R152 to R156) -/

/-- A key's home index in the table. -/
theorem State.homeIndex_eq (s : State) : home s.cfg (fnvHash s.cfg s.key) s.cap.toNat = s.homeIndex := rfl

/-- A slot that does not hold `k` answers nothing for it. -/
theorem State.lookup_eq_none {k : Key}
    (h : ¬ ((s.slotRead (home s.cfg (fnvHash s.cfg k) s.cap.toNat)).occ = true ∧
      (s.slotRead (home s.cfg (fnvHash s.cfg k) s.cap.toNat)).key = k)) : s.lookup k = none :=
  if_neg h

theorem State.lookup_congr_slot {k : Key}
    (h : t.slotRead (home t.cfg (fnvHash t.cfg k) t.cap.toNat) =
      s.slotRead (home s.cfg (fnvHash s.cfg k) s.cap.toNat)) : t.lookup k = s.lookup k := by
  rw [State.lookup, State.lookup, h]

/-- Storing a pair: `KEY` is found, another key with the same home is not, and no other slot has
changed. -/
theorem State.lookup_storePair (s : State) (v : Word) (k : Key) :
    (s.storePair v).lookup k =
      if k = s.key then some v
      else if home s.cfg (fnvHash s.cfg k) s.cap.toNat = s.homeIndex then none
      else s.lookup k := by
  have hread := State.storePair_slotRead v s (home s.cfg (fnvHash s.cfg k) s.cap.toNat)
  rw [State.lookup, State.storePair_cfg, State.storePair_cap, hread]
  by_cases hk : k = s.key
  · simp [hk, State.homeIndex_eq]
  · by_cases hhome : home s.cfg (fnvHash s.cfg k) s.cap.toNat = s.homeIndex
    · simp [hk, hhome, Ne.symm hk]
    · simp [hk, hhome, State.lookup]

/-- Storing a pair in an empty slot takes no key's answer away. -/
theorem State.lookup_storePair_of_not_occ (v : Word) (hocc : (s.slotRead s.homeIndex).occ = false)
    (k : Key) : (s.storePair v).lookup k = if k = s.key then some v else s.lookup k := by
  rw [State.lookup_storePair]
  by_cases hhome : home s.cfg (fnvHash s.cfg k) s.cap.toNat = s.homeIndex
  · rw [if_pos hhome, State.lookup_eq_none (by simp [hhome, hocc])]
  · rw [if_neg hhome]

/-- Emptying the home slot of a key that is found: no other key has its answer there. -/
theorem State.lookup_clearHome (hm : (s.slotRead s.homeIndex).holds s.key = true) (k : Key) :
    s.clearHome.lookup k = if k = s.key then none else s.lookup k := by
  have hread := State.clearHome_slotRead s (home s.cfg (fnvHash s.cfg k) s.cap.toNat)
  have hkey : (s.slotRead s.homeIndex).key = s.key := by simp_all [Slot.holds]
  rw [State.lookup, State.clearHome_cfg, State.clearHome_cap, hread]
  by_cases hhome : home s.cfg (fnvHash s.cfg k) s.cap.toNat = s.homeIndex
  · by_cases hk : k = s.key
    · simp [hk, State.homeIndex_eq, Slot.empty]
    · rw [if_neg hk, State.lookup_eq_none (by simp [hhome, hkey, Ne.symm hk])]
      simp [hhome, Slot.empty]
  · have hk : k ≠ s.key := fun hk => hhome (hk ▸ State.homeIndex_eq s)
    simp [hk, hhome, State.lookup]

end

/-- Settles O46: an INSERT that leaves the bank has not resized, so its one write is the pair. -/
theorem insertUpdatesTheTableAsAMap : Obligations.InsertUpdatesTheTableAsAMap := by
  unfold Obligations.InsertUpdatesTheTableAsAMap
  intro s t v _ h hft _ hbank k
  obtain ⟨-, ⟨-, rfl⟩ | ⟨-, -, rfl⟩⟩ := exec_insert_cases h hft
  · exact State.lookup_storePair s v k
  · simp at hbank

/-- Settles O47: a REMOVE that finds its key empties the slot where it would be found; one that finds
nothing leaves the table, which has no answer for `KEY`. -/
theorem removeErasesOnlyItsKey : Obligations.RemoveErasesOnlyItsKey := by
  unfold Obligations.RemoveErasesOnlyItsKey
  intro s t _ h hft
  obtain ⟨-, ⟨hm, rfl⟩ | ⟨hm, rfl⟩⟩ := exec_remove_cases h hft
  · refine ⟨fun k => State.lookup_clearHome hm k, fun _ => ?_⟩
    have hhome : s.clearHome.homeIndex = s.homeIndex := by
      rw [← State.homeIndex_eq, State.clearHome_cfg, State.clearHome_cap, State.key_clearHome,
        State.homeIndex_eq]
    rw [State.told_slotRead]
    show s.clearHome.slotRead s.clearHome.homeIndex = _
    rw [hhome, State.clearHome_slotRead, if_pos rfl]
    rfl
  · have hnone : s.lookup s.key = none := State.lookup_key_eq_none.mpr (by simp [hm])
    refine ⟨fun k => ?_, fun hfound => absurd hnone hfound⟩
    show s.lookup k = _
    split
    · next hk => rw [hk, hnone]
    · rfl

/-! ## A resize that doubles the capacity (42_table R148) -/

section
variable {s : State}

/-- The new home of a stored key determines its old one, which is where it is. -/
theorem State.newHome_mod (hp : s.placed) (hdouble : newcap s.cap.toNat = 2 * s.cap.toNat) {i : Nat}
    (hi : i < s.cap.toNat) (hocc : (s.slotRead i).occ = true) :
    home s.cfg (fnvHash s.cfg (s.slotRead i).key) (newcap s.cap.toNat) % s.cap.toNat = i := by
  rw [hdouble, home_double]
  exact hp i hi hocc

/-- No two records meet, so the count stays. -/
theorem State.occupied_resize_of_double (hp : s.placed) (hcap : 0 < s.cap.toNat)
    (hdouble : newcap s.cap.toNat = 2 * s.cap.toNat) (hc : newcap s.cap.toNat ≤ s.cfg.capMax.toNat) :
    s.resize.occupied = s.occupied := by
  rw [State.occupied_resize hc, State.occupied_eq_occCount, occCount_eq_card, occCount_eq_card,
    filter_survivor_eq_image _ _ _ (by omega)]
  refine Finset.card_image_of_injOn fun i hi j hj hij => ?_
  simp only [Finset.coe_filter, Finset.mem_range, Set.mem_ofPred_eq] at hi hj
  rw [← State.newHome_mod hp hdouble hi.1 hi.2, ← State.newHome_mod hp hdouble hj.1 hj.2]
  exact congrArg (· % s.cap.toNat) hij

/-- Every key has the answer it had: the record at its new home is the one that was at its old home, or
neither slot holds it. -/
theorem State.lookup_resize_of_double (hp : s.placed) (hcap : 0 < s.cap.toNat)
    (hdouble : newcap s.cap.toNat = 2 * s.cap.toNat) (hc : newcap s.cap.toNat ≤ s.cfg.capMax.toNat)
    (k : Key) : s.resize.lookup k = s.lookup k := by
  have hhome : home s.cfg (fnvHash s.cfg k) (newcap s.cap.toNat) % s.cap.toNat =
      home s.cfg (fnvHash s.cfg k) s.cap.toNat := by rw [hdouble, home_double]
  have hread : s.resize.slotRead (home s.resize.cfg (fnvHash s.resize.cfg k) s.resize.cap.toNat) =
      survivor s.cfg s.slotRead s.cap.toNat (newcap s.cap.toNat)
        (home s.cfg (fnvHash s.cfg k) (newcap s.cap.toNat)) := by
    rw [State.toNat_cap_resize hc, State.resize_cfg, State.resize_slotRead_of_lt (home_lt _ _ (by omega))]
  obtain ⟨hempty, hnone⟩ | ⟨i, hi, hsurv, hocc, hnew, -⟩ := survivor_cases s.cfg s.slotRead s.cap.toNat
    (newcap s.cap.toNat) (home s.cfg (fnvHash s.cfg k) (newcap s.cap.toNat))
  · rw [State.lookup_eq_none (by rw [hread, hempty]; exact fun h => nomatch h.1), State.lookup_eq_none]
    rintro ⟨hocc, hkey⟩
    exact hnone _ (home_lt _ _ hcap) hocc (by rw [hkey])
  · have hi' := State.newHome_mod hp hdouble hi hocc
    rw [hnew, hhome] at hi'
    exact State.lookup_congr_slot (by rw [hread, hsurv, hi'])

end

/-- Storing a pair keeps every record at its home. -/
theorem State.TableInv.placed_storePair {s : State} (h : s.TableInv)
    (hkey : s.key.length ≤ s.cfg.keyMax.toNat) (v : Word) : (s.storePair v).placed := fun i hi => by
  rw [State.storePair_cap] at hi
  rw [State.storePair_cfg, State.storePair_cap]
  exact (State.slotOk_storePair v hkey h.slots i hi).placed

/-- What an INSERT that doubles the capacity leaves: the pair, every answer there was, one slot more. -/
theorem State.Inv.keepsPairs_of_double {s : State} (h : s.Inv) (v : Word) (ht : s.tvalid = true)
    (hg : s.insertGrows = true) (hc : newcap s.cap.toNat ≤ s.cfg.capMax.toNat)
    (hsmall : s.cap.toNat < 1000) :
    (∀ k, (s.storePair v).resize.lookup k = if k = s.key then some v else s.lookup k) ∧
      (s.storePair v).resize.occupied = s.occupied + 1 := by
  obtain ⟨hocc, -⟩ := (State.insertGrows_iff s).mp hg
  obtain ⟨hmin, -⟩ := h.cap_bounds ht
  have hplaced := (h.tableInv ht).placed_storePair h.length_key_le v
  have hdouble : newcap (s.storePair v).cap.toNat = 2 * (s.storePair v).cap.toNat := by
    rw [State.storePair_cap, newcap_of_lt hsmall]
  have hcap : 0 < (s.storePair v).cap.toNat := by rw [State.storePair_cap]; omega
  have hc' : newcap (s.storePair v).cap.toNat ≤ (s.storePair v).cfg.capMax.toNat := by simpa using hc
  constructor
  · intro k
    rw [State.lookup_resize_of_double hplaced hcap hdouble hc', State.lookup_storePair_of_not_occ v hocc]
  · rw [State.occupied_resize_of_double hplaced hcap hdouble hc', State.occupied_storePair v (by omega),
      if_pos (State.insertFills_iff.mpr hocc)]

/-- Settles O48: an INSERT that changes the capacity has resized, and below 1000 slots it doubles. -/
theorem doublingResizeLosesNothing : Obligations.DoublingResizeLosesNothing := by
  unfold Obligations.DoublingResizeLosesNothing
  intro s t v hinv _ h hft hsmall hcap
  obtain ⟨ht, ⟨-, rfl⟩ | ⟨hg, hc, rfl⟩⟩ := exec_insert_cases h hft
  · simp at hcap
  · exact hinv.keepsPairs_of_double v ht hg hc hsmall

/-! ## `SIZE` and the load (42_table R149, R150, R157) -/

/-- Settles O49: an INSERT that does not grow leaves the load in bounds by the comparison it makes, and
one that grows by the arithmetic of the growth rule. -/
theorem oneResizeRestoresTheLoad : Obligations.OneResizeRestoresTheLoad := by
  unfold Obligations.OneResizeRestoresTheLoad
  intro s t v _ hmin hload h hft
  obtain ⟨-, ⟨hg, rfl⟩ | ⟨hg, hc, rfl⟩⟩ := exec_insert_cases h hft
  · exact State.load_storePair v hload hg
  · exact State.load_resize_storePair v hload hg hc hmin

section
variable {s t : State}

/-- The count of a fill, whether the table grows or not. -/
theorem exec_insert_size {v : Word} (h : exec (.insert v) s = .next t) (hf : t.fault = false)
    (hload : 4 * s.size.toNat ≤ 3 * s.cap.toNat) (hocc : (s.slotRead s.homeIndex).occ = false) :
    t.size.toNat = s.size.toNat + 1 := by
  obtain ⟨-, ⟨-, rfl⟩ | ⟨hg, -, rfl⟩⟩ := exec_insert_cases h hf
  · rw [State.told_size, State.toNat_size_storePair v hload, if_pos (State.insertFills_iff.mpr hocc)]
  · rw [State.told_size, State.toNat_size_resize_storePair v hload hg]

/-- With the invariant, a table whose home slot is occupied counts at least one. -/
theorem State.Inv.one_le_size (h : s.Inv) (ht : s.tvalid = true)
    (hocc : (s.slotRead s.homeIndex).occ = true) : 1 ≤ s.size.toNat := by
  obtain ⟨hmin, -⟩ := h.cap_bounds ht
  have := State.occupied_clearHome (by omega) hocc
  have := h.size_ge ht
  omega

end

/-- Settles O50: the load bounds the count before a fill, and a found key's slot is counted. -/
theorem sizeNeverWraps : Obligations.SizeNeverWraps := by
  unfold Obligations.SizeNeverWraps
  intro s t hinv _ hft
  refine ⟨fun v h hocc => ?_, fun h hfound => ?_⟩
  · obtain ⟨ht, -⟩ := exec_insert_cases h hft
    have hload := hinv.load ht
    have hsize := exec_insert_size h hft hload hocc
    exact ⟨hsize, by omega⟩
  · obtain ⟨ht, ⟨hm, rfl⟩ | ⟨hm, -⟩⟩ := exec_remove_cases h hft
    · exact State.toNat_size_clearHome (hinv.one_le_size ht (Slot.occ_of_holds hm))
    · exact absurd (State.lookup_key_eq_none.mpr (by simp [hm])) hfound

/-! ## `SIZE` and the number of occupied slots (42_table R149, R158 (c)) -/

theorem State.Inv.occupied_le_size {s : State} (h : s.Inv) : s.occupied ≤ s.size.toNat := by
  cases ht : s.tvalid with
  | false => rw [State.occupied_eq_zero_of_cap (h.cap_zero ht)]; exact Nat.zero_le _
  | true => exact h.size_ge ht

/-- A command that does not resize from 1000 slots or more counts exactly when the count was exact. -/
theorem Effect.size_eq_occupied {s t : State} {i : Instr} (h : Effect s i t) (hs : s.Inv)
    (heq : s.size.toNat = s.occupied) (hsmall : ¬ (1000 ≤ s.cap.toNat ∧ s.cap.toNat < t.cap.toNat)) :
    t.size.toNat = t.occupied := by
  cases h with
  | construct m hm => exact (State.occupied_construct hm rfl rfl).symm
  | insert v _ ht =>
    obtain ⟨hmin, -⟩ := hs.cap_bounds ht
    refine (State.toNat_size_storePair v (hs.load ht)).trans ?_
    refine Eq.trans ?_ (State.occupied_storePair v (s := s) (by omega)).symm
    rw [heq]
  | insertGrow v _ ht hg hc =>
    obtain ⟨hmin, -⟩ := hs.cap_bounds ht
    have hgrow := lt_newcap (c := s.cap.toNat) (by omega)
    rw [State.told_cap, State.toNat_cap_resize_storePair v hc] at hsmall
    obtain ⟨-, hcount⟩ := hs.keepsPairs_of_double v ht hg hc (by omega)
    exact (State.toNat_size_resize_storePair v (hs.load ht) hg).trans (heq ▸ hcount.symm)
  | remove _ ht hm =>
    obtain ⟨hmin, -⟩ := hs.cap_bounds ht
    have hocc := Slot.occ_of_holds hm
    have hsize := State.toNat_size_clearHome (hs.one_le_size ht hocc)
    have hcount := State.occupied_clearHome (by omega) hocc
    show s.clearHome.size.toNat = s.clearHome.occupied
    omega
  | _ => exact heq

/-- Settles O51: the bound is part of the invariant; the equality is kept command by command, and reset
and the other steps count nothing or change nothing. -/
theorem sizeCountsTheOccupiedSlots : Obligations.SizeCountsTheOccupiedSlots := by
  unfold Obligations.SizeCountsTheOccupiedSlots
  intro s t hinv h
  refine ⟨(everyStepKeepsTheInvariant s t hinv h).occupied_le_size, fun heq hsmall => ?_⟩
  obtain ⟨-, rfl⟩ | ⟨rest, -, rfl⟩ | ⟨w, rest, -, hcmd⟩ := step_cases h
  · exact heq
  · rfl
  · obtain ⟨e, -, ⟨-, rfl⟩ | ⟨-, rfl⟩⟩ | ⟨i, -, -, heff⟩ := hcmd
    · exact heq
    · exact heq
    · exact heff.size_eq_occupied (hinv.withInputs rest) heq hsmall

end Sys2Proof.Machine

namespace Sys2Proof.Machine

/-! ## Runs over a list of commands (30_encoding R81) -/

section
variable {s t : State} {rest : List HostInput}

/-- A run over a list of commands begins with its first command. -/
theorem run_cons {i : Instr} {is : List Instr} (hin : s.inputs = inputsOf (i :: is) ++ rest)
    (h : exec i { s with inputs := inputsOf is ++ rest } = .next t) (n : Nat) :
    Host.Core.run Sys2Proof.core (n + 1) s = Host.Core.run Sys2Proof.core n t :=
  run_succ ((step_inputsOf (everyCommandRoundTrips i) hin).trans h) n

/-- A run over one command. -/
theorem run_singleton {i : Instr} (hin : s.inputs = inputsOf [i] ++ rest) :
    Host.Core.run Sys2Proof.core 1 s = exec i { s with inputs := rest } := by
  obtain ⟨t, ht⟩ := exec_next i { s with inputs := rest }
  exact (run_cons hin ht 0).trans ht.symm

theorem append_doneWords (l : List RspWord) (n : Nat) :
    (l ++ [doneWord]) ++ List.replicate n doneWord = l ++ List.replicate (n + 1) doneWord := by
  rw [List.replicate_succ, List.append_assoc, List.singleton_append]

/-- HABSORB for each byte of `k` continues the digest in `H` over `k` (40_hash R107 (d), R109). -/
theorem run_habsorbs (k : Key) (hf : s.fault = false) (hin : s.inputs = inputsOf (k.map .habsorb) ++ rest) :
    Host.Core.run Sys2Proof.core k.length s = .next { s with
      h := k.foldl (fnvStep s.cfg) s.h, inputs := rest,
      rsps := s.rsps ++ List.replicate k.length doneWord } := by
  induction k generalizing s with
  | nil =>
    have hs : s = { s with inputs := rest, rsps := s.rsps ++ [] } := by
      rw [List.append_nil, ← show s.inputs = rest from hin]
    exact congrArg Host.Outcome.next hs
  | cons b k ih =>
    obtain ⟨-, -, hexec⟩ := habsorbRunsOneRound
    have hrun := ih (s := State.told { s with
      inputs := inputsOf (k.map .habsorb) ++ rest, h := fnvStep s.cfg s.h b } doneWord) hf rfl
    rw [List.length_cons, run_cons hin (hexec _ b hf), hrun, ← append_doneWords]
    rfl

/-- KPUSH for each byte of `k` appends `k` to the key, while it fits (41_keybuf R121). -/
theorem run_kpushes (k : Key) (hf : s.fault = false) (hin : s.inputs = inputsOf (k.map .kpush) ++ rest)
    (hroom : s.klen.toNat + k.length ≤ s.cfg.keyMax.toNat) :
    ∃ m l, Host.Core.run Sys2Proof.core k.length s = .next { s with
        keybuf := m, klen := l, inputs := rest, rsps := s.rsps ++ List.replicate k.length doneWord } ∧
      State.key { s with keybuf := m, klen := l } = s.key ++ k := by
  induction k generalizing s with
  | nil =>
    have hs : s = { s with inputs := rest, rsps := s.rsps ++ [] } := by
      rw [List.append_nil, ← show s.inputs = rest from hin]
    exact ⟨s.keybuf, s.klen, congrArg Host.Outcome.next hs, (List.append_nil _).symm⟩
  | cons b k ih =>
    rw [List.length_cons] at hroom
    have hmax := s.cfg.keyMax.isLt
    obtain ⟨-, -, -, hexec⟩ := kpushAppendsOneByte
    obtain ⟨m₁, hpush, -, hkey₁⟩ := hexec { s with inputs := inputsOf (k.map .kpush) ++ rest } b hf
      (show s.klen.toNat < s.cfg.keyMax.toNat by omega)
    obtain ⟨m, l, hrun, hkey⟩ := ih (s := State.told { s with
        inputs := inputsOf (k.map .kpush) ++ rest, keybuf := m₁,
        klen := BitVec.ofNat 16 (s.klen.toNat + 1) } doneWord) hf rfl (by
      show (BitVec.ofNat 16 (s.klen.toNat + 1)).toNat + k.length ≤ s.cfg.keyMax.toNat
      rw [BitVec.toNat_ofNat]
      omega)
    refine ⟨m, l, ?_, hkey.trans ?_⟩
    · rw [List.length_cons, run_cons hin hpush, hrun, ← append_doneWords]
      rfl
    · exact (congrArg (· ++ k) hkey₁).trans (List.append_assoc ..)

/-- KEY `k` and one command more: the command runs with the key `k`, and everything but the key buffer
and the channels is as before (30_encoding R81). -/
theorem run_key_then (k : Key) (i : Instr) (hf : s.fault = false)
    (hin : s.inputs = inputsOf ((.kclr :: k.map .kpush) ++ [i]) ++ rest)
    (hroom : k.length ≤ s.cfg.keyMax.toNat) :
    ∃ m l, Host.Core.run Sys2Proof.core (k.length + 2) s = exec i { s with
        keybuf := m, klen := l, inputs := rest,
        rsps := s.rsps ++ List.replicate (k.length + 1) doneWord } ∧
      State.key { s with keybuf := m, klen := l } = k := by
  rw [inputsOf_append, List.append_assoc] at hin
  obtain ⟨-, -, hclr⟩ := kclrEmptiesTheKey
  obtain ⟨hexec, hempty⟩ := hclr { s with inputs := inputsOf (k.map .kpush) ++ (inputsOf [i] ++ rest) } hf
  obtain ⟨m, l, hrun, hkey⟩ := run_kpushes (s := State.told { s with
    inputs := inputsOf (k.map .kpush) ++ (inputsOf [i] ++ rest), klen := 0#16 } doneWord) k hf rfl
    ((Nat.zero_add _).trans_le hroom)
  refine ⟨m, l, ?_, hkey.trans (congrArg (· ++ k) hempty)⟩
  rw [show k.length + 2 = k.length + 1 + 1 from rfl, run_cons hin hexec, run_add hrun 1,
    run_singleton rfl, ← append_doneWords]
  rfl

end

/-- Settles O43: both sequences end with the digest as the fold over the same bytes, the one from the
basis HINIT loads, the other of the key the pushes leave. -/
theorem streamingAndKeyBufferDigestsAgree : Obligations.StreamingAndKeyBufferDigestsAgree := by
  unfold Obligations.StreamingAndKeyBufferDigestsAgree
  intro s k rest hf
  constructor
  · intro hin
    rw [expandPseudo, inputsOf_append, List.append_assoc] at hin
    obtain ⟨-, -, hinit⟩ := hinitLoadsTheBasis
    have hrun := run_habsorbs (s := State.told { s with
      inputs := inputsOf (k.map .habsorb) ++ (inputsOf [.rdreg RegName.h.number] ++ rest),
      h := s.cfg.basis } doneWord) k hf rfl
    rw [show k.length + 2 = k.length + 1 + 1 from rfl, run_cons hin (hinit _ hf), run_add hrun 1,
      run_singleton rfl, exec_rdreg_assigned (RegName.ofNumber_number .h)]
    exact ⟨_, rfl, rfl, rfl, List.getLast?_concat⟩
  · intro hin hroom
    obtain ⟨m, l, hrun, hkey⟩ := run_key_then k .hkey hf hin hroom
    obtain ⟨-, -, hhkey⟩ := hkeyReturnsTheDigest
    exact ⟨_, hrun.trans (hhkey _ hf), rfl, hkey, congrArg (fnvHash s.cfg) hkey, List.getLast?_concat.trans
      (congrArg (fun k => some (dataWord (fnvHash s.cfg k))) hkey)⟩

end Sys2Proof.Machine

namespace Sys2Proof.Machine

/-! ## PUT and LOOKUP on a table with room (30_encoding R81, 42_table R158 (a), (b)) -/

/-- What PUT `k`, `v` leaves of `s` when it does not resize: a table of the same capacity that answers
`v` for `k`, nothing for another key with the same home, and what it answered for every other key. -/
structure AfterPut (s : State) (k : Key) (v : Word) (rest : List HostInput) (t : State) : Prop where
  inputs : t.inputs = rest
  cfg : t.cfg = s.cfg
  cap : t.cap = s.cap
  fault : t.fault = false
  tvalid : t.tvalid = true
  size_le : t.size.toNat ≤ s.size.toNat + 1
  responses : t.rsps.length = s.rsps.length + (k.length + 2)
  lookup : ∀ k', t.lookup k' =
    if k' = k then some v
    else if home s.cfg (fnvHash s.cfg k') s.cap.toNat = home s.cfg (fnvHash s.cfg k) s.cap.toNat then none
    else s.lookup k'

section
variable {s : State} {k : Key} {rest : List HostInput}

/-- A pair counts for one at most. -/
theorem State.toNat_size_storePair_le (v : Word) :
    (s.storePair v).size.toNat ≤ s.size.toNat + 1 := by
  rw [State.storePair_size]
  split
  · rw [BitVec.toNat_ofNat]
    exact Nat.mod_le _ _
  · exact Nat.le_succ _

theorem run_put (v : Word) (hf : s.fault = false) (ht : s.tvalid = true)
    (hload : 4 * (s.size.toNat + 1) ≤ 3 * s.cap.toNat) (hroom : k.length ≤ s.cfg.keyMax.toNat)
    (hin : s.inputs = inputsOf (expandPseudo (.put k v)) ++ rest) :
    ∃ t, Host.Core.run Sys2Proof.core (k.length + 2) s = .next t ∧ AfterPut s k v rest t := by
  obtain ⟨m, l, hrun, hkey⟩ := run_key_then k (.insert v) hf hin hroom
  generalize hu : { s with
    keybuf := m, klen := l, inputs := rest,
    rsps := s.rsps ++ List.replicate (k.length + 1) doneWord } = u at hrun
  have hukey : u.key = k := hu ▸ hkey
  have hgrows : ¬ u.insertGrows = true := State.not_insertGrows_of_load (hu ▸ hload)
  refine ⟨_, hrun.trans (exec_insert_storePair v (hu ▸ hf) (hu ▸ ht) hgrows), ?_⟩
  refine ⟨?_, ?_, ?_, ?_, ?_, ?_, ?_, fun k' => ?_⟩
  · simp [← hu]
  · simp [← hu]
  · simp [← hu]
  · simp [← hu, hf]
  · simp [← hu, ht]
  · exact (State.toNat_size_storePair_le v).trans (by rw [← hu])
  · simp [← hu]
  · refine (State.lookup_storePair u v k').trans ?_
    rw [← State.homeIndex_eq, hukey]
    subst hu
    rfl

/-- LOOKUP `k` answers what the table holds for `k`, once for each of its commands. -/
theorem run_lookup (hf : s.fault = false) (ht : s.tvalid = true) (hroom : k.length ≤ s.cfg.keyMax.toNat)
    (hin : s.inputs = inputsOf (expandPseudo (.lookup k)) ++ rest) :
    ∃ t, Host.Core.run Sys2Proof.core (k.length + 2) s = .next t ∧ t.fault = false ∧
      t.rsps.length = s.rsps.length + (k.length + 2) ∧
      t.rsps.getLast? = some (lookupWord (s.lookup k)) := by
  obtain ⟨m, l, hrun, hkey⟩ := run_key_then k .get hf hin hroom
  obtain ⟨-, -, -, hget⟩ := getAnswersTheMatchingValue
  refine ⟨_, hrun.trans (hget _ hf ht), hf, ?_, List.getLast?_concat.trans ?_⟩
  · simp [State.told]
  · exact congrArg (fun k => some (lookupWord (s.lookup k))) hkey

end

/-- A table of empty slots answers nothing. -/
theorem State.lookup_of_empty_slots {t : State} (hcap : 0 < t.cap.toNat)
    (h : ∀ i, i < t.cap.toNat → (t.slotRead i).occ = false) (k : Key) : t.lookup k = none :=
  State.lookup_eq_none fun ⟨hocc, _⟩ => by simp [h _ (home_lt _ _ hcap)] at hocc

/-- After reset CONSTRUCT makes a table of 127 slots that answers nothing. -/
theorem run_construct (c : Config) (is : List Instr) :
    ∃ t, Host.Core.run Sys2Proof.core 1 { State.resetWith c with inputs := inputsOf (.construct :: is) } =
        .next t ∧ t.inputs = inputsOf is ∧ t.cfg = c ∧ t.cap = 127#32 ∧ t.size = 0#32 ∧ t.fault = false ∧
      t.tvalid = true ∧ t.rsps.length = 1 ∧ ∀ k, t.lookup k = none := by
  obtain ⟨-, -, hconstruct⟩ := constructMakesAnEmptyTable
  obtain ⟨m, hexec, hread⟩ := hconstruct { State.resetWith c with inputs := inputsOf is ++ [] } rfl
  have hrun := run_cons (s := { State.resetWith c with inputs := inputsOf (.construct :: is) })
    (List.append_nil _).symm hexec 0
  refine ⟨_, hrun, List.append_nil _, rfl, rfl, rfl, rfl, rfl, rfl, fun k => ?_⟩
  refine State.lookup_of_empty_slots (by show 0 < 127; decide) (fun i hi => ?_) k
  exact congrArg Slot.occ ((hread i).trans (if_pos hi))

/-- Settles O53: CONSTRUCT, two pairs into 127 slots, which cannot grow the table, and a lookup; the
second pair takes the answer of the first away exactly when their homes are one. -/
theorem twoInsertsOnAFreshTable : Obligations.TwoInsertsOnAFreshTable := by
  unfold Obligations.TwoInsertsOnAFreshTable
  intro c k1 k2 k v1 v2 _ hne hk1 hk2 hk
  obtain ⟨s₀, hrun₀, hin₀, hcfg₀, hcap₀, hsize₀, hf₀, ht₀, hlen₀, hnone₀⟩ := run_construct c
    (expandPseudo (.put k1 v1) ++ expandPseudo (.put k2 v2) ++ expandPseudo (.lookup k))
  rw [List.append_assoc, inputsOf_append] at hin₀
  obtain ⟨s₁, hrun₁, h₁⟩ := run_put v1 hf₀ ht₀ (by rw [hcap₀, hsize₀]; decide) (hcfg₀ ▸ hk1) hin₀
  have hin₁ := h₁.inputs
  rw [inputsOf_append] at hin₁
  have hload₁ : 4 * (s₁.size.toNat + 1) ≤ 3 * s₁.cap.toNat := by
    have hsize₁ : s₁.size.toNat ≤ 0 + 1 := h₁.size_le.trans (by rw [hsize₀]; rfl)
    rw [h₁.cap, hcap₀]
    exact (Nat.mul_le_mul_left 4 (Nat.succ_le_succ hsize₁)).trans (by decide)
  obtain ⟨s₂, hrun₂, h₂⟩ := run_put v2 h₁.fault h₁.tvalid hload₁
    (by rw [h₁.cfg, hcfg₀]; exact hk2) hin₁
  obtain ⟨t, hrun₃, hft, hlen, hlast⟩ := run_lookup (rest := []) h₂.fault h₂.tvalid
    (by rw [h₂.cfg, h₁.cfg, hcfg₀]; exact hk) (h₂.inputs.trans (List.append_nil _).symm)
  have hlength : (Instr.construct :: (expandPseudo (.put k1 v1) ++ expandPseudo (.put k2 v2) ++
      expandPseudo (.lookup k))).length = 1 + ((k1.length + 2) + ((k2.length + 2) + (k.length + 2))) := by
    simp [expandPseudo]
    omega
  refine ⟨t, ?_, hft, ?_, hlast.trans (congrArg (fun o => some (lookupWord o)) ?_)⟩
  · rw [hlength, run_add hrun₀, run_add hrun₁, run_add hrun₂, hrun₃]
  · rw [hlength, hlen, h₂.responses, h₁.responses, hlen₀]
    omega
  · rw [h₂.lookup, h₁.lookup, hnone₀, h₁.cfg, h₁.cap, hcfg₀, hcap₀, ite_self]
    by_cases hk : k = k1
    · subst hk
      simp [hne]
    · simp [hk]

end Sys2Proof.Machine

namespace Sys2Proof.Machine

/-! ## An iteration (43_iterate R170, R174) -/

/-- The occupied slots from index `c` up, in ascending order: what an iteration with its cursor there
has yet to yield. -/
def State.occupiedFrom (s : State) (c : Nat) : List Nat :=
  (List.range' c (s.cap.toNat - c)).filter fun i => (s.slotRead i).occ

section
variable {s : State}

theorem State.occupiedFrom_zero (s : State) :
    s.occupiedFrom 0 = (List.range s.cap.toNat).filter fun i => (s.slotRead i).occ := by
  rw [State.occupiedFrom, List.range_eq_range', Nat.sub_zero]

theorem State.occupiedFrom_cap (s : State) : s.occupiedFrom s.cap.toNat = [] := by
  rw [State.occupiedFrom, Nat.sub_self]
  rfl

/-- The slot the scan finds is the first of them, and the others are above it. -/
theorem State.occupiedFrom_of_nextOccupied_eq_some {i : Nat} (h : s.nextOccupied = some i) :
    s.occupiedFrom s.icur.toNat = i :: s.occupiedFrom (i + 1) := by
  obtain ⟨hlow, hhigh, hocc, hfirst⟩ := State.nextOccupied_eq_some.mp h
  have hrange : List.range' s.icur.toNat (s.cap.toNat - s.icur.toNat) =
      List.range' s.icur.toNat (i - s.icur.toNat) ++ i :: List.range' (i + 1) (s.cap.toNat - (i + 1)) := by
    have hcount : s.cap.toNat - s.icur.toNat = (i - s.icur.toNat) + (s.cap.toNat - (i + 1) + 1) := by omega
    rw [hcount, ← List.range'_append_1, List.range'_succ, Nat.add_sub_of_le hlow]
  have hnone : (List.range' s.icur.toNat (i - s.icur.toNat)).filter (fun i => (s.slotRead i).occ) = [] := by
    refine List.filter_eq_nil_iff.mpr fun j hj => ?_
    obtain ⟨hj₁, hj₂⟩ := List.mem_range'_1.mp hj
    simp [hfirst j hj₁ (by omega)]
  rw [State.occupiedFrom, hrange, List.filter_append, hnone, List.nil_append, List.filter_cons, if_pos hocc]
  rfl

theorem State.occupiedFrom_of_nextOccupied_eq_none (h : s.nextOccupied = none) :
    s.occupiedFrom s.icur.toNat = [] := by
  refine List.filter_eq_nil_iff.mpr fun j hj => ?_
  obtain ⟨hlow, hhigh⟩ := List.mem_range'_1.mp hj
  simp [State.nextOccupied_eq_none.mp h j hlow (by omega)]

end

/-- What `n` ITNEXT leave of `s`, with the slots of `occ` yet to yield: their values answered, then
NONE; the key of the last one yielded in the key buffer; the table as before. -/
structure AfterItnexts (s : State) (occ : List Nat) (n : Nat) (rest : List HostInput) (t : State) :
    Prop where
  inputs : t.inputs = rest
  responses : t.rsps = s.rsps ++ ((occ.take n).map (fun i => dataWord (s.slotRead i).val)
    ++ List.replicate (n - occ.length) noneWord)
  key : n ≤ occ.length → (s.key :: occ.map fun i => (s.slotRead i).key)[n]? = some t.key
  slot0 : t.slot0 = s.slot0
  slot1 : t.slot1 = s.slot1
  bank : t.bank = s.bank
  cap : t.cap = s.cap
  size : t.size = s.size

theorem AfterItnexts.of_list_eq {s t : State} {occ occ' : List Nat} {n : Nat} {rest : List HostInput}
    (h : AfterItnexts s occ n rest t) (hocc : occ = occ') : AfterItnexts s occ' n rest t := hocc ▸ h

theorem run_itnexts (n : Nat) {s : State} {rest : List HostInput} (hf : s.fault = false)
    (ht : s.tvalid = true) (ha : s.itact = true)
    (hkeys : ∀ i, i < s.cap.toNat → (s.slotRead i).key.length ≤ s.cfg.keyMax.toNat)
    (hin : s.inputs = inputsOf (List.replicate n .itnext) ++ rest) :
    ∃ t, Host.Core.run Sys2Proof.core n s = .next t ∧
      AfterItnexts s (s.occupiedFrom s.icur.toNat) n rest t := by
  induction n generalizing s with
  | zero => exact ⟨s, rfl, hin, by simp, fun _ => rfl, rfl, rfl, rfl, rfl, rfl⟩
  | succ n ih =>
    cases hn : s.nextOccupied with
    | some i =>
      obtain ⟨-, hlt, -, -⟩ := State.nextOccupied_eq_some.mp hn
      have hexec := exec_itnext_of_some (s := { s with
        inputs := inputsOf (List.replicate n .itnext) ++ rest }) hf ht ha hn
      obtain ⟨t, hrun, h⟩ := ih (s := State.told { State.loadKey (s.slotRead i).key { s with
        inputs := inputsOf (List.replicate n .itnext) ++ rest } with icur := BitVec.ofNat 32 (i + 1) }
        (dataWord (s.slotRead i).val)) hf ht ha hkeys rfl
      have hkey : (s.loadKey (s.slotRead i).key).key = (s.slotRead i).key :=
        State.key_loadKey s _ ((hkeys i hlt).trans_lt s.cfg.keyMax.isLt)
      refine ⟨t, (run_cons hin hexec n).trans hrun, ?_⟩
      rw [State.occupiedFrom_of_nextOccupied_eq_some hn, ← toNat_ofNat_cursor hlt]
      refine ⟨h.inputs, h.responses.trans ?_, fun hle => ?_, h.slot0, h.slot1, h.bank, h.cap, h.size⟩
      · rw [List.take_succ_cons, List.map_cons, List.length_cons, Nat.add_sub_add_right]
        exact List.append_assoc ..
      · refine Eq.trans ?_ (h.key (Nat.le_of_succ_le_succ hle))
        exact congrArg (fun k => (k :: List.map _ _)[n]?) hkey.symm
    | none =>
      have hexec := exec_itnext_of_none (s := { s with
        inputs := inputsOf (List.replicate n .itnext) ++ rest }) hf ht ha hn
      obtain ⟨t, hrun, h⟩ := ih (s := State.told { s with
        inputs := inputsOf (List.replicate n .itnext) ++ rest, icur := s.cap } noneWord) hf ht ha hkeys rfl
      have hempty := State.occupiedFrom_of_nextOccupied_eq_none hn
      refine ⟨t, (run_cons hin hexec n).trans hrun, ?_⟩
      replace h := h.of_list_eq (State.occupiedFrom_cap s)
      rw [hempty]
      refine ⟨h.inputs, h.responses.trans ?_, fun hle => absurd hle (by simp), h.slot0, h.slot1, h.bank,
        h.cap, h.size⟩
      simp [List.replicate_succ]

/-- Settles O54: after ITSTART the cursor is 0, and from there each ITNEXT yields the first of the
occupied slots from the cursor up. -/
theorem iterationYieldsEachPairOnce : Obligations.IterationYieldsEachPairOnce := by
  unfold Obligations.IterationYieldsEachPairOnce
  intro s n rest hf ht hkeys hin occ
  obtain ⟨-, -, -, hitstart⟩ := itstartRestartsTheIteration
  have hexec := hitstart { s with inputs := inputsOf (List.replicate n .itnext) ++ rest } hf ht
  obtain ⟨t, hrun, h⟩ := run_itnexts n (s := State.told { s with
    inputs := inputsOf (List.replicate n .itnext) ++ rest, icur := 0#32, itact := true } doneWord)
    hf ht rfl hkeys rfl
  replace h : AfterItnexts _ occ n rest t := h.of_list_eq (State.occupiedFrom_zero s)
  refine ⟨t, (run_cons hin hexec n).trans hrun, h.inputs, h.responses.trans (List.append_assoc ..),
    fun m hm hlt => ?_, h.slot0, h.slot1, h.bank, h.cap, h.size⟩
  have hkey := h.key (hm ▸ hlt)
  rw [hm, List.getElem?_cons_succ, List.getElem?_map, List.getElem?_eq_getElem hlt] at hkey
  exact (Option.some.inj hkey).symm

end Sys2Proof.Machine

namespace Sys2Proof.Machine

/-! ## Commands in the order asked for (60_exceptions R208) -/

/-- What a run of commands in order keeps: outside the fault state a table has been made, and an
iteration is active, where the order says so; in the fault state the cause is one of the two that want
of room raises. -/
structure InStep (made iter : Bool) (s : State) : Prop where
  tvalid : s.fault = false → made = true → s.tvalid = true
  itact : s.fault = false → iter = true → s.itact = true
  fcause : s.fault = true → s.fcause = 4#8 ∨ s.fcause = 7#8

/-- A command that comes in order raises a fault only for want of room. -/
theorem InStep.code_of_raises {made iter : Bool} {s : State} {i : Instr} {c : Cause}
    (h : InStep made iter s) (hf : s.fault = false) (ho : (askedOrder made iter i).1 = true)
    (hc : Raises s i c) : c.code = 4#8 ∨ c.code = 7#8 := by
  cases c with
  | illegalOpcode | reservedBits => exact hc.elim
  | badRegister =>
    obtain ⟨n, rfl, hn⟩ := hc
    exact absurd hn (Nat.not_lt.mpr (of_decide_eq_true ho))
  | keyOverflow => exact .inl rfl
  | noTable =>
    obtain ⟨ht, hi⟩ := hc
    have hmade : made = true := by
      obtain ⟨v, rfl⟩ | rfl | rfl | rfl | rfl := hi
      case inr.inr.inr.inr => exact (Bool.and_eq_true_iff.mp ho).1
      all_goals exact ho
    simp [h.tvalid hf hmade] at ht
  | iterInactive =>
    obtain ⟨rfl, -, ha⟩ := hc
    simp [h.itact hf (Bool.and_eq_true_iff.mp ho).2] at ha
  | capacityExhausted => exact .inr rfl

/-- A command in order keeps step with the order. -/
theorem InStep.effect {made iter : Bool} {s t : State} {i : Instr} (h : InStep made iter s)
    (ho : (askedOrder made iter i).1 = true) (heff : Effect s i t) :
    InStep (askedOrder made iter i).2.1 (askedOrder made iter i).2.2 t := by
  have ⟨htvalid, hitact, hfcause⟩ := h
  cases heff with
  | refused hf =>
    have hfault : s.refused.fault ≠ false := by rw [State.refused_eq_raised hf]; nofun
    exact ⟨fun hnot => absurd hnot hfault, fun hnot => absurd hnot hfault, hfcause⟩
  | raised hf c hc => exact ⟨nofun, nofun, fun _ => h.code_of_raises hf ho hc⟩
  | construct => exact ⟨fun _ _ => rfl, nofun, hfcause⟩
  | insert v hf ht => exact ⟨fun _ _ => by simp [ht], nofun, by simp [hf]⟩
  | insertGrow v hf ht => exact ⟨fun _ _ => by simp [ht], nofun, by simp [hf]⟩
  | remove hf ht => exact ⟨fun _ _ => by simp [ht], nofun, by simp [hf]⟩
  | removeNone hf ht => exact ⟨fun _ _ => ht, nofun, hfcause⟩
  | itstart hf ht => exact ⟨fun _ _ => ht, fun _ _ => rfl, hfcause⟩
  | _ => exact ⟨htvalid, hitact, hfcause⟩

theorem InStep.run {is : List Instr} {made iter : Bool} (n : Nat) {s t : State} (h : InStep made iter s)
    (ho : inOrder made iter is = true) (hin : s.inputs = inputsOf is)
    (hrun : Host.Core.run Sys2Proof.core n s = .next t) (hft : t.fault = true) :
    t.fcause = 4#8 ∨ t.fcause = 7#8 := by
  induction n generalizing s made iter is with
  | zero =>
    obtain rfl := Host.Outcome.next.inj hrun
    exact h.fcause hft
  | succ n ih =>
    cases is with
    | nil => exact ih h ho hin ((run_succ (step_of_nil hin) n).symm.trans hrun)
    | cons i is =>
      obtain ⟨hfirst, hrest⟩ := Bool.and_eq_true_iff.mp ho
      obtain ⟨u, hu⟩ := exec_next i { s with inputs := inputsOf is ++ [] }
      have hcons := run_cons (hin.trans (List.append_nil _).symm) hu n
      have hs : InStep made iter { s with inputs := inputsOf is ++ [] } := { h with }
      exact ih (hs.effect hfirst (exec_effect hu)) hrest ((exec_keeps_inputs hu).trans (List.append_nil _))
        (hcons.symm.trans hrun)

/-- Settles O60: after reset there is neither a table nor an iteration nor a fault, and each command of
the list keeps step with its order. -/
theorem orderedCommandsFaultOnlyWhenFull : Obligations.OrderedCommandsFaultOnlyWhenFull := by
  unfold Obligations.OrderedCommandsFaultOnlyWhenFull
  intro c is n t _ ho hrun hft
  have hreset : InStep false false { State.resetWith c with inputs := inputsOf is } :=
    ⟨nofun, nofun, nofun⟩
  exact hreset.run n ho rfl hrun hft

end Sys2Proof.Machine
